-- ==== Sys2Proof/Word.lean ====
section
/-! DEFINITION. The word types of WFE (`00_scope.md` R7, R9): a register word is 32 bits, a channel and a
byte of buffer memory 8 bits. -/

namespace Sys2Proof

/-- A register word and a register-port transfer: `REG_W` = 32 bits (R7, R9). -/
abbrev Word := BitVec 32

/-- One byte of buffer memory, of the scratch RAM, or one colour channel (R51, R52). -/
abbrev Byte := BitVec 8

end Sys2Proof
end

