-- ==== Sys2Proof/Machine/Enclosure.lean ====
section
/-! DEFINITION. How the kernel coefficient generator computes the weights of `40_primitives.md` R108.

With sigma code s, R108's weight of offset i is `t^(i*i)` over the sum of all of them, for `t = exp(-2^31 / s^2)`,
because `1 / (2 σ^2) = 2^31 / s^2`. The generator encloses t between two multiples of `2^-p`, for a precision p, and
rounds each weight from both ends (R112). DEDUCED, assumption 9. -/

namespace Sys2Proof.Machine

/-- The fixed-point scale of the enclosure at a precision. -/
def kqScale (p : Nat) : Nat := 2 ^ p

/-- How many terms of the exponential series are taken at a precision. -/
def kqTerms (p : Nat) : Nat := p / 4 + 8

/-- The numerator of the first `n` terms of the series of `exp(1 / s^2)`, over the denominator `seriesDen s n`. -/
def seriesNum (s : Nat) : Nat → Nat
  | 0 => 0
  | n + 1 => seriesNum s n * (s * s * n) + 1

/-- The denominator of the first `n` terms of the series of `exp(1 / s^2)`. -/
def seriesDen (s n : Nat) : Nat := (s * s) ^ (n - 1) * (n - 1).factorial

/-- Division rounded up. -/
def divUp (a b : Nat) : Nat := (a + b - 1) / b

/-- A number below `exp(-1 / s^2)`, scaled. -/
def rootLow (p s : Nat) : Nat := kqScale p * seriesDen s (kqTerms p) / (seriesNum s (kqTerms p) + 1)

/-- A number above `exp(-1 / s^2)`, scaled. -/
def rootHigh (p s : Nat) : Nat := divUp (kqScale p * seriesDen s (kqTerms p)) (seriesNum s (kqTerms p))

/-- A scaled number squared `n` times, each time rounded down. -/
def squareLow (p x : Nat) : Nat → Nat
  | 0 => x
  | n + 1 => squareLow p x n * squareLow p x n / kqScale p

/-- A scaled number squared `n` times, each time rounded up. -/
def squareHigh (p x : Nat) : Nat → Nat
  | 0 => x
  | n + 1 => divUp (squareHigh p x n * squareHigh p x n) (kqScale p)

/-- A number below t, scaled: `t = exp(-1 / s^2) ^ (2^31)`. -/
def baseLow (p s : Nat) : Nat := squareLow p (rootLow p s) 31

/-- A number above t, scaled. -/
def baseHigh (p s : Nat) : Nat := squareHigh p (rootHigh p s) 31

/-- `t^(i*i)` for a scaled t, over the common scale `kqScale p ^ (r*r)`. -/
def tapOf (p t r i : Nat) : Nat := t ^ (i * i) * kqScale p ^ (r * r - i * i)

/-- The sum of the taps of the offsets -r … r. -/
def tapSum (p t r : Nat) : Nat :=
  tapOf p t r 0 + 2 * ((List.range r).map fun i => tapOf p t r (i + 1)).sum

/-- `floor(65536 · tap / total + 1/2)` (R112). -/
def roundTap (tap total : Nat) : Nat := (2 * 65536 * tap + total) / (2 * total)

/-- The coefficients q[1] … q[r], from the taps of one end of the enclosure and the sum of the other. -/
def outerTaps (p tapEnd sumEnd r : Nat) : List Nat :=
  (List.range r).map fun i => roundTap (tapOf p tapEnd r (i + 1)) (tapSum p sumEnd r)

/-- Whether a precision decides the rounding of every coefficient: both ends of the enclosure round alike. -/
def kqDecided (p r s : Nat) : Bool :=
  outerTaps p (baseLow p s) (baseHigh p s) r == outerTaps p (baseHigh p s) (baseLow p s) r

end Sys2Proof.Machine
end

