-- ==== Sys2Proof/Laws/Enclosure.lean ====
section
/-! SUPPORT. The laws of the enclosure the kernel generator computes with: its bounds in naturals, the taps, and that it
holds the exponential of R108. -/

namespace Sys2Proof.Machine

variable {p : Nat}

/-! ## The enclosure, in naturals -/

theorem kqScale_pos : 0 < kqScale p := by unfold kqScale; positivity

theorem two_le_kqTerms : 2 ≤ kqTerms p := by unfold kqTerms; omega

theorem seriesDen_succ {s n : Nat} (hn : 1 ≤ n) : seriesDen s (n + 1) = seriesDen s n * (s * s * n) := by
  obtain ⟨k, rfl⟩ : ∃ k, n = k + 1 := ⟨n - 1, by omega⟩
  simp only [seriesDen, Nat.add_sub_cancel, pow_succ, Nat.factorial_succ]
  ring

theorem seriesDen_pos {s : Nat} (hs : 1 ≤ s) (n : Nat) : 0 < seriesDen s n := by
  unfold seriesDen
  have := Nat.factorial_pos (n - 1)
  positivity

theorem seriesDen_le_seriesNum (s n : Nat) (hn : 1 ≤ n) : seriesDen s n ≤ seriesNum s n := by
  induction n, hn using Nat.le_induction with
  | base => simp [seriesDen, seriesNum]
  | succ n hn ih =>
    rw [seriesDen_succ hn, seriesNum]
    exact Nat.le_succ_of_le (Nat.mul_le_mul_right _ ih)

theorem divUp_le {a b c : Nat} (hb : 0 < b) (h : a ≤ c * b) : divUp a b ≤ c := by
  unfold divUp
  refine Nat.le_of_lt_succ ((Nat.div_lt_iff_lt_mul hb).mpr ?_)
  have : c.succ * b = c * b + b := Nat.succ_mul c b
  omega

theorem le_divUp {a b : Nat} (hb : 0 < b) : a ≤ divUp a b * b := by
  unfold divUp
  have h₁ := Nat.div_add_mod (a + b - 1) b
  have h₂ := Nat.mod_lt (a + b - 1) hb
  have : b * ((a + b - 1) / b) = (a + b - 1) / b * b := Nat.mul_comm _ _
  omega

theorem rootHigh_le (s : Nat) (hs : 1 ≤ s) : rootHigh p s ≤ kqScale p := by
  have h := seriesDen_le_seriesNum s (kqTerms p) (by unfold kqTerms; omega)
  exact divUp_le (lt_of_lt_of_le (seriesDen_pos hs _) h) (Nat.mul_le_mul_left _ h)

theorem rootLow_le_rootHigh (s : Nat) (hs : 1 ≤ s) : rootLow p s ≤ rootHigh p s := by
  have hA : 0 < seriesNum s (kqTerms p) :=
    lt_of_lt_of_le (seriesDen_pos hs _) (seriesDen_le_seriesNum s (kqTerms p) (by unfold kqTerms; omega))
  refine le_trans (Nat.div_le_div_left (by omega) hA) ?_
  exact Nat.div_le_of_le_mul ((le_divUp hA).trans_eq (Nat.mul_comm _ _))

theorem squareHigh_le {x : Nat} (hx : x ≤ kqScale p) (n : Nat) : squareHigh p x n ≤ kqScale p := by
  induction n with
  | zero => exact hx
  | succ n ih => exact divUp_le kqScale_pos (Nat.mul_le_mul ih ih)

theorem squareLow_le_squareHigh {x y : Nat} (h : x ≤ y) (n : Nat) : squareLow p x n ≤ squareHigh p y n := by
  induction n with
  | zero => exact h
  | succ n ih =>
    exact Nat.div_le_of_le_mul (le_trans (Nat.mul_le_mul ih ih) ((le_divUp kqScale_pos).trans_eq (Nat.mul_comm _ _)))

theorem baseHigh_le (s : Nat) (hs : 1 ≤ s) : baseHigh p s ≤ kqScale p := squareHigh_le (rootHigh_le s hs) _

theorem baseLow_le_baseHigh (s : Nat) (hs : 1 ≤ s) : baseLow p s ≤ baseHigh p s :=
  squareLow_le_squareHigh (rootLow_le_rootHigh s hs) _

/-! ## Taps -/

theorem tapOf_mono {t u : Nat} (h : t ≤ u) (r i : Nat) : tapOf p t r i ≤ tapOf p u r i :=
  Nat.mul_le_mul_right _ (Nat.pow_le_pow_left h _)

theorem tapOf_anti {t r i j : Nat} (ht : t ≤ kqScale p) (hij : i ≤ j) (hj : j ≤ r) : tapOf p t r j ≤ tapOf p t r i := by
  have h₁ : i * i ≤ j * j := Nat.mul_le_mul hij hij
  have h₂ : j * j ≤ r * r := Nat.mul_le_mul hj hj
  unfold tapOf
  calc t ^ (j * j) * kqScale p ^ (r * r - j * j)
      = t ^ (i * i) * (t ^ (j * j - i * i) * kqScale p ^ (r * r - j * j)) := by
        rw [← Nat.mul_assoc, ← pow_add, Nat.add_sub_cancel' h₁]
    _ ≤ t ^ (i * i) * (kqScale p ^ (j * j - i * i) * kqScale p ^ (r * r - j * j)) :=
        Nat.mul_le_mul_left _ (Nat.mul_le_mul_right _ (Nat.pow_le_pow_left ht _))
    _ = t ^ (i * i) * kqScale p ^ (r * r - i * i) := by
        rw [← pow_add]; congr 2; omega

theorem tapOf_zero (t r : Nat) : tapOf p t r 0 = kqScale p ^ (r * r) := by simp [tapOf]

theorem tapOf_le {t r i : Nat} (ht : t ≤ kqScale p) (hi : i ≤ r) : tapOf p t r i ≤ kqScale p ^ (r * r) :=
  tapOf_zero t r ▸ tapOf_anti ht (Nat.zero_le i) hi

theorem tapSum_pos (t r : Nat) : 0 < tapSum p t r := by
  have : 0 < kqScale p ^ (r * r) := Nat.pow_pos kqScale_pos
  rw [tapSum, tapOf_zero]; omega

theorem roundTap_mono {a b : Nat} (h : a ≤ b) (total : Nat) : roundTap a total ≤ roundTap b total :=
  Nat.div_le_div_right (by omega)

theorem outerTaps_length (t u r : Nat) : (outerTaps p t u r).length = r := by simp [outerTaps]

theorem outerTaps_getD {t u r i : Nat} (hi : i < r) :
    (outerTaps p t u r).getD i 0 = roundTap (tapOf p t r (i + 1)) (tapSum p u r) := by
  simp [outerTaps, hi]

theorem outerTaps_pairwise {t u r : Nat} (ht : t ≤ kqScale p) : (outerTaps p t u r).Pairwise (· ≥ ·) := by
  rw [outerTaps, List.pairwise_map]
  refine (List.pairwise_lt_range (n := r)).imp_of_mem fun {a b} _ hb hab => ?_
  have := List.mem_range.mp hb
  exact roundTap_mono (tapOf_anti ht (by omega) (by omega)) _

theorem two_mul_roundTap_le (tap total : Nat) : 2 * total * roundTap tap total ≤ 2 * 65536 * tap + total :=
  Nat.mul_div_le _ _

/-- The outer coefficients sum to at most half the scale, so the centre tap is never negative (R113, P1 and P2). -/
theorem outerTaps_sum_le {t u r : Nat} (htu : t ≤ u) (hu : u ≤ kqScale p) (hr : r ≤ 15) :
    2 * (outerTaps p t u r).sum ≤ 65536 := by
  set S := tapSum p u r with hS
  set K := kqScale p ^ (r * r) with hK
  have hsum : ∀ n, n ≤ r → 2 * S * ((List.range n).map fun i => roundTap (tapOf p t r (i + 1)) S).sum
      ≤ 2 * 65536 * ((List.range n).map fun i => tapOf p u r (i + 1)).sum + n * S
      ∧ ((List.range n).map fun i => tapOf p u r (i + 1)).sum ≤ n * K := by
    intro n hn
    induction n with
    | zero => simp
    | succ n ih =>
      obtain ⟨ih₁, ih₂⟩ := ih (by omega)
      have h₁ := two_mul_roundTap_le (tapOf p t r (n + 1)) S
      have h₂ := tapOf_mono (p := p) htu r (n + 1)
      have h₃ : tapOf p u r (n + 1) ≤ K := tapOf_le hu hn
      simp only [List.range_succ, List.map_append, List.map_cons, List.map_nil, List.sum_append, List.sum_cons,
        List.sum_nil, Nat.add_zero, Nat.mul_add, Nat.add_mul, Nat.one_mul]
      constructor <;> omega
  obtain ⟨h₁, h₂⟩ := hsum r le_rfl
  have hS' : S = K + 2 * ((List.range r).map fun i => tapOf p u r (i + 1)).sum := by rw [hS, tapSum, tapOf_zero]
  have hSpos : 0 < S := tapSum_pos u r
  have hrK : r * S ≤ 65536 * K := by
    have : S ≤ 31 * K := by
      have : r * K ≤ 15 * K := Nat.mul_le_mul_right _ hr
      omega
    calc r * S ≤ 15 * (31 * K) := Nat.mul_le_mul hr this
      _ ≤ 65536 * K := by omega
  have hfin : S * (2 * (outerTaps p t u r).sum) ≤ S * 65536 := by
    have hre : S * (2 * (outerTaps p t u r).sum) = 2 * S * (outerTaps p t u r).sum := by ring
    rw [hre]
    have : (outerTaps p t u r).sum = ((List.range r).map fun i => roundTap (tapOf p t r (i + 1)) S).sum := rfl
    rw [this]
    omega
  exact Nat.le_of_mul_le_mul_left hfin hSpos

/-! ## The exponential of R108 -/

/-- The first `n` terms of the series of `exp(1 / s^2)`. -/
theorem seriesNum_div_seriesDen {s : Nat} (hs : 1 ≤ s) (n : Nat) (hn : 1 ≤ n) :
    (seriesNum s n : ℝ) / seriesDen s n = ∑ k ∈ Finset.range n, (1 / ((s : ℝ) * s)) ^ k / k.factorial := by
  induction n, hn using Nat.le_induction with
  | base => simp [seriesNum, seriesDen]
  | succ n hn ih =>
    have hn' : (n : ℝ) ≠ 0 := by positivity
    have hs' : (s : ℝ) ≠ 0 := by positivity
    have hd : (seriesDen s n : ℝ) ≠ 0 := by have := seriesDen_pos hs n; positivity
    have hdn : (seriesDen s (n + 1) : ℝ) = ((s : ℝ) * s) ^ n * n.factorial := by
      simp [seriesDen]
    rw [Finset.sum_range_succ, ← ih]
    have hnum : (seriesNum s (n + 1) : ℝ) = seriesNum s n * (s * s * n) + 1 := by
      simp [seriesNum]
    have hden : (seriesDen s (n + 1) : ℝ) = seriesDen s n * (s * s * n) := by
      rw [seriesDen_succ hn]; push_cast; ring
    rw [hnum, add_div]
    congr 1
    · rw [hden]; field_simp
    · rw [hdn, one_div, one_div, inv_pow]
      field_simp

/-- The first `n` terms of the series enclose `exp(1 / s^2)`. -/
theorem series_encloses {s : Nat} (hs : 1 ≤ s) {n : Nat} (hn : 2 ≤ n) :
    (seriesNum s n : ℝ) / seriesDen s n ≤ Real.exp (1 / ((s : ℝ) * s)) ∧
      Real.exp (1 / ((s : ℝ) * s)) ≤ ((seriesNum s n : ℝ) + 1) / seriesDen s n := by
  have hs1 : (1 : ℝ) ≤ s := by exact_mod_cast hs
  have hss : (1 : ℝ) ≤ (s : ℝ) * s := by nlinarith
  have hx0 : (0 : ℝ) ≤ 1 / ((s : ℝ) * s) := by positivity
  have hx1 : 1 / ((s : ℝ) * s) ≤ 1 := by rw [div_le_one (by linarith)]; exact hss
  have hsum := seriesNum_div_seriesDen hs n (by omega)
  refine ⟨hsum ▸ Real.sum_le_exp_of_nonneg hx0 _, ?_⟩
  have hb := Real.exp_bound' hx0 hx1 (n := n) (by omega)
  rw [add_div, hsum]
  refine le_trans hb (add_le_add le_rfl ?_)
  obtain ⟨k, rfl⟩ : ∃ k, n = k + 1 := ⟨n - 1, by omega⟩
  have hk : (1 : ℝ) ≤ k := by exact_mod_cast (by omega : 1 ≤ k)
  have hdn : (seriesDen s (k + 1) : ℝ) = ((s : ℝ) * s) ^ k * k.factorial := by simp [seriesDen]
  have hf : (0 : ℝ) < k.factorial := by exact_mod_cast k.factorial_pos
  rw [hdn, Nat.factorial_succ, one_div, inv_pow, ← one_div, div_mul_eq_mul_div, one_mul, div_div,
    div_le_div_iff₀ (by positivity) (by positivity), one_mul]
  push_cast
  have h₁ : ((s : ℝ) * s) ^ k ≤ ((s : ℝ) * s) ^ (k + 1) := pow_le_pow_right₀ hss (by omega)
  calc ((k : ℝ) + 1 + 1) * (((s : ℝ) * s) ^ k * k.factorial)
      ≤ (((k : ℝ) + 1) * (k + 1)) * (((s : ℝ) * s) ^ (k + 1) * k.factorial) := by
        gcongr; nlinarith
    _ = ((s : ℝ) * s) ^ (k + 1) * (((k : ℝ) + 1) * k.factorial * (k + 1)) := by ring

/-- `rootLow` and `rootHigh` enclose `exp(-1 / s^2)`, scaled. -/
theorem root_encloses {s : Nat} (hs : 1 ≤ s) :
    (rootLow p s : ℝ) ≤ kqScale p * Real.exp (-(1 / ((s : ℝ) * s))) ∧
      (kqScale p) * Real.exp (-(1 / ((s : ℝ) * s))) ≤ rootHigh p s := by
  obtain ⟨h₁, h₂⟩ := series_encloses hs (two_le_kqTerms (p := p))
  have hd : (0 : ℝ) < seriesDen s (kqTerms p) := by exact_mod_cast seriesDen_pos hs (kqTerms p)
  have hA : 0 < seriesNum s (kqTerms p) :=
    lt_of_lt_of_le (seriesDen_pos hs _) (seriesDen_le_seriesNum s (kqTerms p) (by unfold kqTerms; omega))
  have hA' : (0 : ℝ) < seriesNum s (kqTerms p) := by exact_mod_cast hA
  have hB : (0 : ℝ) < kqScale p := by exact_mod_cast kqScale_pos
  have he : 0 < Real.exp (1 / ((s : ℝ) * s)) := Real.exp_pos _
  rw [Real.exp_neg, ← div_eq_mul_inv]
  constructor
  · have hfl : (rootLow p s : ℝ) ≤ ((kqScale p) * seriesDen s (kqTerms p) : ℝ) / (seriesNum s (kqTerms p) + 1) := by
      have := @Nat.cast_div_le ℝ _ _ _ ((kqScale p) * seriesDen s (kqTerms p)) (seriesNum s (kqTerms p) + 1)
      push_cast at this
      exact this
    refine le_trans hfl ?_
    rw [div_le_div_iff₀ (by linarith) he]
    rw [le_div_iff₀ hd] at h₂
    nlinarith
  · have hle : ((kqScale p) * seriesDen s (kqTerms p) : ℝ) ≤ rootHigh p s * seriesNum s (kqTerms p) := by
      exact_mod_cast le_divUp (a := (kqScale p) * seriesDen s (kqTerms p)) hA
    rw [div_le_iff₀ he]
    rw [div_le_iff₀ hd] at h₁
    have hr : (0 : ℝ) ≤ rootHigh p s := by positivity
    nlinarith [mul_le_mul_of_nonneg_left h₁ hr]

theorem squareLow_encloses {x : Nat} {y : ℝ} (hx : (x : ℝ) ≤ kqScale p * y) (n : Nat) :
    (squareLow p x n : ℝ) ≤ kqScale p * y ^ 2 ^ n := by
  have hB : (0 : ℝ) < kqScale p := by exact_mod_cast kqScale_pos
  induction n with
  | zero => simpa [squareLow] using hx
  | succ n ih =>
    have h₁ := @Nat.cast_div_le ℝ _ _ _ (squareLow p x n * squareLow p x n) (kqScale p)
    refine le_trans h₁ ?_
    rw [div_le_iff₀ hB]
    have h0 : (0 : ℝ) ≤ squareLow p x n := by positivity
    calc ((squareLow p x n * squareLow p x n : ℕ) : ℝ) = squareLow p x n * squareLow p x n := by push_cast; ring
      _ ≤ ((kqScale p) * y ^ 2 ^ n) * ((kqScale p) * y ^ 2 ^ n) := mul_le_mul ih ih h0 (le_trans h0 ih)
      _ = (kqScale p) * y ^ 2 ^ (n + 1) * (kqScale p) := by rw [pow_succ 2 n, pow_mul]; ring

theorem squareHigh_encloses {x : Nat} {y : ℝ} (hy : 0 ≤ y) (hx : (kqScale p) * y ≤ (x : ℝ)) (n : Nat) :
    (kqScale p) * y ^ 2 ^ n ≤ (squareHigh p x n : ℝ) := by
  have hB : (0 : ℝ) < kqScale p := by exact_mod_cast kqScale_pos
  induction n with
  | zero => simpa [squareHigh] using hx
  | succ n ih =>
    have h₁ : ((squareHigh p x n : ℝ) * squareHigh p x n) ≤ squareHigh p x (n + 1) * (kqScale p) := by
      exact_mod_cast le_divUp (a := squareHigh p x n * squareHigh p x n) kqScale_pos
    refine le_of_mul_le_mul_right ?_ hB
    refine le_trans ?_ h₁
    have h0 : 0 ≤ kqScale p * y ^ 2 ^ n := by positivity
    calc (kqScale p : ℝ) * y ^ 2 ^ (n + 1) * (kqScale p : ℝ) = ((kqScale p) * y ^ 2 ^ n) * ((kqScale p) * y ^ 2 ^ n) := by
          rw [pow_succ 2 n, pow_mul]; ring
      _ ≤ (squareHigh p x n : ℝ) * squareHigh p x n := mul_le_mul ih ih h0 (le_trans h0 ih)

/-- `baseLow` and `baseHigh` enclose `t = exp(-2^31 / s^2)`, scaled. -/
theorem base_encloses {s : Nat} (hs : 1 ≤ s) :
    (baseLow p s : ℝ) ≤ kqScale p * Real.exp (-(2 ^ 31 / ((s : ℝ) * s))) ∧
      (kqScale p) * Real.exp (-(2 ^ 31 / ((s : ℝ) * s))) ≤ baseHigh p s := by
  obtain ⟨h₁, h₂⟩ := root_encloses hs
  have he : Real.exp (-(2 ^ 31 / ((s : ℝ) * s))) = Real.exp (-(1 / ((s : ℝ) * s))) ^ 2 ^ 31 := by
    rw [← Real.exp_nat_mul]; congr 1; push_cast; ring
  rw [he]
  exact ⟨squareLow_encloses h₁ 31, squareHigh_encloses (Real.exp_pos _).le h₂ 31⟩

end Sys2Proof.Machine
end

