-- ==== Sys2Proof/Laws/Exponential.lean ====
section
/-! SUPPORT. The kernel generator ends: every legal radius and sigma code has a precision whose enclosure decides the
rounding of R112. The two facts behind it: no coefficient of R112 meets a tie, because Euler's number is transcendental,
and the ends of the enclosure converge to the exponential of R108. -/

namespace Sys2Proof.Machine

/-! ## No tie: the transcendence of Euler's number -/

open Polynomial in
/-- Euler's number is transcendental. The integer `N` below is not 0, since a large prime does not divide it, and has an
absolute value below 1. -/
theorem transcendental_exp_one : Transcendental ℤ (Complex.exp 1) := by
  intro halg
  obtain ⟨q, hq0, hq⟩ := halg.exists_nonzero_coeff_and_aeval_eq_zero
    (mem_nonZeroDivisors_of_ne_zero (Complex.exp_ne_zero 1))
  set d := q.natDegree with hd
  set f : ℤ[X] := ∏ k ∈ Finset.range d, (X - C ((k : ℤ) + 1)) with hf
  have hf0 : f.eval 0 ≠ 0 := by
    rw [hf, eval_prod, Finset.prod_ne_zero_iff]
    intro k _
    simp only [eval_sub, eval_X, eval_C, zero_sub]
    omega
  have hfne : f ≠ 0 := by rintro h; rw [h] at hf0; simp at hf0
  obtain ⟨c, hc⟩ := LindemannWeierstrass.exp_polynomial_approx f hf0
  set A : ℝ := ∑ k ∈ Finset.range d, |(q.coeff (k + 1) : ℝ)| with hA
  have hlim : Filter.Tendsto (fun p : ℕ => A * (c * (c ^ p / (p.factorial : ℝ)))) Filter.atTop (nhds 0) := by
    have := (FloorSemiring.tendsto_pow_div_factorial_atTop (c : ℝ)).const_mul (A * c)
    simpa [mul_assoc] using this
  obtain ⟨p0, hp0⟩ := Filter.eventually_atTop.mp (hlim.eventually (gt_mem_nhds one_pos))
  obtain ⟨p, hp, hprime⟩ := Nat.exists_infinite_primes (p0 + (f.eval 0).natAbs + (q.coeff 0).natAbs + 2)
  obtain ⟨n, hn, gp, -, hg⟩ := hc p (by omega) hprime
  have hroot : ∀ k ∈ Finset.range d,
      ‖n • Complex.exp ((k : ℂ) + 1) - p • aeval ((k : ℂ) + 1) gp‖ ≤ c ^ p / (p - 1).factorial := by
    intro k hk
    apply hg
    rw [mem_aroots]
    refine ⟨hfne, ?_⟩
    rw [hf, map_prod, Finset.prod_eq_zero hk]
    simp
  set N : ℤ := n * q.coeff 0 + p * ∑ k ∈ Finset.range d, q.coeff (k + 1) * gp.eval ((k : ℤ) + 1) with hN
  have hpn : ¬ (p : ℤ) ∣ N := by
    rw [hN, dvd_add_left (dvd_mul_right _ _)]
    intro h
    rcases Int.Prime.dvd_mul' hprime h with h | h
    · exact hn h
    · have := Int.le_of_dvd (Int.natAbs_pos.mpr hq0 |> fun h => by exact_mod_cast h) (Int.dvd_natAbs.mpr h)
      omega
  have hN0 : N ≠ 0 := by rintro h; exact hpn (h ▸ dvd_zero _)
  have hsum : (N : ℂ) = -∑ k ∈ Finset.range d, (q.coeff (k + 1) : ℂ) *
      (n • Complex.exp ((k : ℂ) + 1) - p • aeval ((k : ℂ) + 1) gp) := by
    have h0 : ∑ k ∈ Finset.range d, (q.coeff (k + 1) : ℂ) * Complex.exp ((k : ℂ) + 1) + q.coeff 0 = 0 := by
      rw [aeval_eq_sum_range, Finset.sum_range_succ'] at hq
      rw [← hq]
      congr 1
      · refine Finset.sum_congr rfl fun k _ => ?_
        rw [← Complex.exp_nat_mul, zsmul_eq_mul]; congr 2; push_cast; ring
      · simp
    have hev : ∀ k : ℕ, aeval ((k : ℂ) + 1) gp = ((gp.eval ((k : ℤ) + 1) : ℤ) : ℂ) := by
      intro k
      have := aeval_algebraMap_apply ℂ ((k : ℤ) + 1) gp
      simpa using this
    simp only [hev, zsmul_eq_mul, nsmul_eq_mul, mul_sub, Finset.sum_sub_distrib, hN]
    push_cast
    have e1 : ∑ k ∈ Finset.range d, (q.coeff (k + 1) : ℂ) * (n * Complex.exp ((k : ℂ) + 1))
        = n * ∑ k ∈ Finset.range d, (q.coeff (k + 1) : ℂ) * Complex.exp ((k : ℂ) + 1) := by
      rw [Finset.mul_sum]; exact Finset.sum_congr rfl fun k _ => by ring
    have e2 : ∑ k ∈ Finset.range d, (q.coeff (k + 1) : ℂ) * (p * ((gp.eval ((k : ℤ) + 1) : ℤ) : ℂ))
        = p * ∑ k ∈ Finset.range d, (q.coeff (k + 1) : ℂ) * ((gp.eval ((k : ℤ) + 1) : ℤ) : ℂ) := by
      rw [Finset.mul_sum]; exact Finset.sum_congr rfl fun k _ => by ring
    rw [e1, e2]
    linear_combination (n : ℂ) * h0
  have hle : (1 : ℝ) ≤ ‖(N : ℂ)‖ := by
    rw [Complex.norm_intCast]; exact_mod_cast Int.one_le_abs hN0
  have hlt : ‖(N : ℂ)‖ ≤ A * (c ^ p / (p - 1).factorial) := by
    rw [hsum, norm_neg, hA, Finset.sum_mul]
    refine norm_sum_le_of_le _ fun k hk => ?_
    rw [norm_mul, Complex.norm_intCast]
    exact mul_le_mul_of_nonneg_left (hroot k hk) (abs_nonneg _)
  have hsmall := hp0 (p - 1) (by omega)
  have : A * (c * (c ^ (p - 1) / ((p - 1).factorial : ℝ))) = A * (c ^ p / (p - 1).factorial) := by
    rw [← mul_div_assoc, ← pow_succ', Nat.sub_add_cancel hprime.one_le]
  rw [this] at hsmall
  linarith

/-- The exponential of a rational other than 0 is transcendental; here `t = exp(-2^31 / s^2)` of R108. -/
theorem transcendental_base {s : Nat} (hs : 1 ≤ s) : Transcendental ℤ (Real.exp (-(2 ^ 31 / ((s : ℝ) * s)))) := by
  intro h
  have hs' : (s : ℝ) ≠ 0 := by positivity
  have hp : Real.exp (-(2 ^ 31 / ((s : ℝ) * s))) ^ (s * s) = (Real.exp 1 ^ 2 ^ 31)⁻¹ := by
    rw [← Real.exp_nat_mul, ← Real.exp_nat_mul, ← Real.exp_neg]
    congr 1
    push_cast
    field_simp
    norm_num
  have h₁ := (hp ▸ h.pow (s * s)).inv
  rw [inv_inv] at h₁
  have h₂ : IsAlgebraic ℤ (Real.exp 1) := h₁.of_pow (by positivity)
  refine transcendental_exp_one ?_
  have := h₂.algebraMap (A := ℂ)
  simpa using this

/-- A value of R112 before it is rounded down: `65536 · w(i) + 1/2`, for the weight of offset i over a base t. -/
noncomputable def unrounded (t : ℝ) (r i : Nat) : ℝ :=
  65536 * (t ^ (i * i) / (1 + 2 * ∑ j ∈ Finset.range r, t ^ ((j + 1) * (j + 1)))) + 1 / 2

open Polynomial in
/-- No coefficient of R112 meets a tie: the value that is rounded down is no integer. -/
theorem unrounded_ne_intCast {s r i : Nat} (hs : 1 ≤ s) (hi : 1 ≤ i) (k : ℤ) :
    unrounded (Real.exp (-(2 ^ 31 / ((s : ℝ) * s)))) r i ≠ k := by
  set t := Real.exp (-(2 ^ 31 / ((s : ℝ) * s))) with ht
  have ht0 : 0 < t := Real.exp_pos _
  intro h
  have hS : (0 : ℝ) < 1 + 2 * ∑ j ∈ Finset.range r, t ^ ((j + 1) * (j + 1)) := by positivity
  set P : ℤ[X] := C (2 * k - 1) * (1 + 2 * ∑ j ∈ Finset.range r, X ^ ((j + 1) * (j + 1))) - C 131072 * X ^ (i * i)
    with hP
  refine transcendental_base hs ⟨P, ?_, ?_⟩
  · intro h0
    have : P.eval 0 = 2 * k - 1 := by
      have hz : ∀ j, j ≠ 0 → (0 : ℤ) ^ (j * j) = 0 := fun j hj => zero_pow (Nat.mul_ne_zero hj hj)
      simp [hP, eval_finsetSum, hz i (by omega)]
    rw [h0, eval_zero] at this
    omega
  · rw [unrounded] at h
    have h₁ : 65536 * (t ^ (i * i) / (1 + 2 * ∑ j ∈ Finset.range r, t ^ ((j + 1) * (j + 1)))) = k - 1 / 2 := by linarith
    rw [← mul_div_assoc, div_eq_iff hS.ne'] at h₁
    simp only [hP, map_sub, map_mul, map_add, map_one, aeval_C, map_sum, map_pow, aeval_X, map_ofNat]
    simp only [algebraMap_int_eq, eq_intCast]
    rw [← ht]
    linarith

/-! ## The enclosure converges -/

open Filter Topology

/-- Naturals within 1 of a scaled sequence have its limit, once scaled back. -/
theorem tendsto_div_kqScale {m : ℕ → ℕ} {f : ℕ → ℝ} {y : ℝ} (hf : Tendsto f atTop (𝓝 y))
    (h : ∀ p, |(m p : ℝ) - kqScale p * f p| ≤ 1) : Tendsto (fun p => (m p : ℝ) / kqScale p) atTop (𝓝 y) := by
  have hB : ∀ p, (0 : ℝ) < kqScale p := fun p => by exact_mod_cast kqScale_pos
  have h0 : Tendsto (fun p => (1 / 2 : ℝ) ^ p) atTop (𝓝 0) :=
    tendsto_pow_atTop_nhds_zero_of_lt_one (by norm_num) (by norm_num)
  have hd : Tendsto (fun p => (m p : ℝ) / kqScale p - f p) atTop (𝓝 0) := by
    refine squeeze_zero_norm (fun p => ?_) h0
    have : (m p : ℝ) / kqScale p - f p = (m p - kqScale p * f p) / kqScale p := by
      field_simp [(hB p).ne']
    rw [Real.norm_eq_abs, this, abs_div, abs_of_pos (hB p), div_le_iff₀ (hB p)]
    refine (h p).trans_eq ?_
    rw [kqScale]; push_cast; rw [← mul_pow]; norm_num
  simpa using hd.add hf

/-- A division rounded down is within 1 of the quotient. -/
theorem abs_div_sub_le (a b : ℕ) : |((a / b : ℕ) : ℝ) - (a : ℝ) / b| ≤ 1 := by
  have h₁ := Nat.cast_div_le (α := ℝ) (m := a) (n := b)
  have h₂ : (a : ℝ) / b < (a / b : ℕ) + 1 := by
    rcases Nat.eq_zero_or_pos b with rfl | hb
    · simp
    · rw [div_lt_iff₀ (by exact_mod_cast hb)]
      have := Nat.lt_div_mul_add (a := a) hb
      have h : a < (a / b + 1) * b := by rw [Nat.add_mul, Nat.one_mul]; exact this
      exact_mod_cast h
  rw [abs_le]; constructor <;> linarith

/-- A division rounded up is within 1 of the quotient. -/
theorem abs_divUp_sub_le (a : ℕ) {b : ℕ} (hb : 0 < b) : |(divUp a b : ℝ) - (a : ℝ) / b| ≤ 1 := by
  have hb' : (0 : ℝ) < b := by exact_mod_cast hb
  have h₁ : (a : ℝ) / b ≤ divUp a b := by
    rw [div_le_iff₀ hb']; exact_mod_cast le_divUp hb
  have h₂ : (divUp a b : ℝ) ≤ a / b + 1 := by
    have : (divUp a b : ℝ) ≤ ((a + b - 1 : ℕ) : ℝ) / b := Nat.cast_div_le
    refine this.trans ?_
    rw [div_add_one hb'.ne', div_le_div_iff_of_pos_right hb']
    exact_mod_cast (by omega : a + b - 1 ≤ a + b)
  rw [abs_le]; constructor <;> linarith

theorem tendsto_kqTerms : Tendsto kqTerms atTop atTop := by
  refine tendsto_atTop_mono (fun p => (by unfold kqTerms; omega : p / 4 ≤ kqTerms p)) ?_
  exact Nat.tendsto_div_const_atTop (by norm_num)

/-- The partial sums that the enclosure takes converge to `exp(1 / s^2)`. -/
theorem tendsto_series {s : Nat} (hs : 1 ≤ s) :
    Tendsto (fun p => (seriesNum s (kqTerms p) : ℝ) / seriesDen s (kqTerms p)) atTop
      (𝓝 (Real.exp (1 / ((s : ℝ) * s)))) := by
  have he : HasSum (fun n => (1 / ((s : ℝ) * s)) ^ n / n.factorial) (Real.exp (1 / ((s : ℝ) * s))) :=
    Real.exp_eq_exp_ℝ ▸ NormedSpace.expSeries_div_hasSum_exp _
  have h := he.tendsto_sum_nat.comp tendsto_kqTerms
  refine h.congr fun p => ?_
  rw [seriesNum_div_seriesDen hs _ (by unfold kqTerms; omega)]
  rfl

theorem tendsto_one_div_seriesDen {s : Nat} (hs : 1 ≤ s) :
    Tendsto (fun p => 1 / (seriesDen s (kqTerms p) : ℝ)) atTop (𝓝 0) := by
  have h : Tendsto (fun p => ((kqTerms p : ℕ) : ℝ)) atTop atTop := tendsto_natCast_atTop_atTop.comp tendsto_kqTerms
  have h' := (tendsto_atTop_add_const_right atTop (-1 : ℝ) h).inv_tendsto_atTop
  refine squeeze_zero (fun p => by positivity) (fun p => ?_) h'
  have hn : (1 : ℝ) < kqTerms p := by exact_mod_cast (by unfold kqTerms; omega : 1 < kqTerms p)
  have hle : (kqTerms p - 1) ≤ seriesDen s (kqTerms p) :=
    (Nat.self_le_factorial _).trans (Nat.le_mul_of_pos_left _ (by positivity))
  have hle' : (kqTerms p : ℝ) + -1 ≤ seriesDen s (kqTerms p) := by
    have : (kqTerms p : ℝ) ≤ seriesDen s (kqTerms p) + 1 := by exact_mod_cast (by omega)
    linarith
  simp only [Pi.inv_apply, one_div]
  exact inv_anti₀ (by linarith) hle'

theorem tendsto_rootLow {s : Nat} (hs : 1 ≤ s) :
    Tendsto (fun p => (rootLow p s : ℝ) / kqScale p) atTop (𝓝 (Real.exp (-(1 / ((s : ℝ) * s))))) := by
  have hf : Tendsto (fun p => (seriesDen s (kqTerms p) : ℝ) / (seriesNum s (kqTerms p) + 1)) atTop
      (𝓝 (Real.exp (-(1 / ((s : ℝ) * s))))) := by
    have h := ((tendsto_series hs).add (tendsto_one_div_seriesDen hs)).inv₀ (by simp)
    rw [add_zero, ← Real.exp_neg] at h
    refine h.congr fun p => ?_
    rw [← add_div, inv_div]
  refine tendsto_div_kqScale hf fun p => ?_
  have h := abs_div_sub_le (kqScale p * seriesDen s (kqTerms p)) (seriesNum s (kqTerms p) + 1)
  push_cast at h
  rwa [mul_div_assoc] at h

theorem tendsto_rootHigh {s : Nat} (hs : 1 ≤ s) :
    Tendsto (fun p => (rootHigh p s : ℝ) / kqScale p) atTop (𝓝 (Real.exp (-(1 / ((s : ℝ) * s))))) := by
  have hf : Tendsto (fun p => (seriesDen s (kqTerms p) : ℝ) / seriesNum s (kqTerms p)) atTop
      (𝓝 (Real.exp (-(1 / ((s : ℝ) * s))))) := by
    have h := (tendsto_series hs).inv₀ (Real.exp_ne_zero _)
    rw [← Real.exp_neg] at h
    exact h.congr fun p => inv_div _ _
  refine tendsto_div_kqScale hf fun p => ?_
  have hn : 0 < seriesNum s (kqTerms p) :=
    lt_of_lt_of_le (seriesDen_pos hs _) (seriesDen_le_seriesNum s _ (by unfold kqTerms; omega))
  have h := abs_divUp_sub_le (kqScale p * seriesDen s (kqTerms p)) hn
  push_cast at h
  rwa [mul_div_assoc] at h

theorem scaled_square (p x : ℕ) : (kqScale p : ℝ) * ((x : ℝ) / kqScale p) ^ 2 = ((x * x : ℕ) : ℝ) / kqScale p := by
  have : (kqScale p : ℝ) ≠ 0 := by exact_mod_cast kqScale_pos.ne'
  push_cast
  field_simp

theorem tendsto_squareLow {x : ℕ → ℕ} {y : ℝ} (hx : Tendsto (fun p => (x p : ℝ) / kqScale p) atTop (𝓝 y)) (n : ℕ) :
    Tendsto (fun p => (squareLow p (x p) n : ℝ) / kqScale p) atTop (𝓝 (y ^ 2 ^ n)) := by
  induction n with
  | zero => simpa [squareLow] using hx
  | succ n ih =>
    rw [pow_succ, pow_mul]
    refine tendsto_div_kqScale (ih.pow 2) fun p => ?_
    rw [scaled_square]
    exact abs_div_sub_le _ _

theorem tendsto_squareHigh {x : ℕ → ℕ} {y : ℝ} (hx : Tendsto (fun p => (x p : ℝ) / kqScale p) atTop (𝓝 y)) (n : ℕ) :
    Tendsto (fun p => (squareHigh p (x p) n : ℝ) / kqScale p) atTop (𝓝 (y ^ 2 ^ n)) := by
  induction n with
  | zero => simpa [squareHigh] using hx
  | succ n ih =>
    rw [pow_succ, pow_mul]
    refine tendsto_div_kqScale (ih.pow 2) fun p => ?_
    rw [scaled_square]
    exact abs_divUp_sub_le _ kqScale_pos

theorem exp_root_pow (s : Nat) :
    Real.exp (-(1 / ((s : ℝ) * s))) ^ 2 ^ 31 = Real.exp (-(2 ^ 31 / ((s : ℝ) * s))) := by
  rw [← Real.exp_nat_mul]; congr 1; push_cast; ring

/-- Both ends of the enclosure converge to `t = exp(-2^31 / s^2)`. -/
theorem tendsto_base {s : Nat} (hs : 1 ≤ s) :
    Tendsto (fun p => (baseLow p s : ℝ) / kqScale p) atTop (𝓝 (Real.exp (-(2 ^ 31 / ((s : ℝ) * s))))) ∧
      Tendsto (fun p => (baseHigh p s : ℝ) / kqScale p) atTop (𝓝 (Real.exp (-(2 ^ 31 / ((s : ℝ) * s))))) := by
  rw [← exp_root_pow]
  exact ⟨tendsto_squareLow (tendsto_rootLow hs) 31, tendsto_squareHigh (tendsto_rootHigh hs) 31⟩

/-! ## The rounding is decided -/

/-- A tap over the common scale is a power of the base. -/
theorem tapOf_div (p : ℕ) {t r i : ℕ} (hi : i ≤ r) :
    (tapOf p t r i : ℝ) / kqScale p ^ (r * r) = ((t : ℝ) / kqScale p) ^ (i * i) := by
  have hB : (kqScale p : ℝ) ≠ 0 := by exact_mod_cast kqScale_pos.ne'
  have h := Nat.mul_le_mul hi hi
  rw [tapOf, div_pow, div_eq_div_iff (pow_ne_zero _ hB) (pow_ne_zero _ hB)]
  push_cast
  rw [mul_assoc, ← pow_add, Nat.sub_add_cancel h]

theorem sum_map_range (f : ℕ → ℕ) (r : ℕ) : ((List.range r).map f).sum = ∑ j ∈ Finset.range r, f j := by
  induction r with
  | zero => rfl
  | succ r ih => simp [List.range_succ, Finset.sum_range_succ, ih]

theorem tapSum_div (p t r : ℕ) : (tapSum p t r : ℝ) / kqScale p ^ (r * r)
    = 1 + 2 * ∑ j ∈ Finset.range r, ((t : ℝ) / kqScale p) ^ ((j + 1) * (j + 1)) := by
  have hB : (kqScale p : ℝ) ≠ 0 := by exact_mod_cast kqScale_pos.ne'
  rw [Finset.sum_congr rfl fun j hj => (tapOf_div p (t := t) (Finset.mem_range.mp hj)).symm, ← Finset.sum_div, tapSum,
    tapOf_zero, sum_map_range]
  push_cast
  field_simp

/-- A rounded tap is the floor of R112's value, for the powers of one end of the enclosure over the sum of the other. -/
theorem roundTap_eq_floor (tap : ℕ) {total : ℕ} (h : 0 < total) :
    roundTap tap total = ⌊65536 * ((tap : ℝ) / total) + 1 / 2⌋ := by
  have h' : (0 : ℝ) < total := by exact_mod_cast h
  rw [eq_comm, Int.floor_eq_iff, roundTap]
  have e : (65536 * ((tap : ℝ) / total) + 1 / 2) = ((2 * 65536 * tap + total : ℕ) : ℝ) / ((2 * total : ℕ) : ℝ) := by
    push_cast; field_simp; ring
  rw [e]
  have h₁ := Nat.cast_div_le (α := ℝ) (m := 2 * 65536 * tap + total) (n := 2 * total)
  refine ⟨by exact_mod_cast h₁, ?_⟩
  rw [div_lt_iff₀ (by positivity)]
  have := Nat.lt_div_mul_add (a := 2 * 65536 * tap + total) (b := 2 * total) (by omega)
  have h₂ : 2 * 65536 * tap + total < ((2 * 65536 * tap + total) / (2 * total) + 1) * (2 * total) := by
    rw [Nat.add_mul, Nat.one_mul]; exact this
  exact_mod_cast h₂

/-- Where the bases converge to one t and the limit is no tie, the rounded taps are eventually R112's value. -/
theorem eventually_roundTap {a b : ℕ → ℕ} {t : ℝ} (ht : 0 < t)
    (ha : Tendsto (fun p => (a p : ℝ) / kqScale p) atTop (𝓝 t))
    (hb : Tendsto (fun p => (b p : ℝ) / kqScale p) atTop (𝓝 t)) {r i : ℕ} (hi : i ≤ r)
    (hk : ∀ k : ℤ, unrounded t r i ≠ k) :
    ∀ᶠ p in atTop, (roundTap (tapOf p (a p) r i) (tapSum p (b p) r) : ℤ) = ⌊unrounded t r i⌋ := by
  have hS : (0 : ℝ) < 1 + 2 * ∑ j ∈ Finset.range r, t ^ ((j + 1) * (j + 1)) := by positivity
  have hlim : Tendsto (fun p => 65536 * ((tapOf p (a p) r i : ℝ) / tapSum p (b p) r) + 1 / 2) atTop
      (𝓝 (unrounded t r i)) := by
    refine Tendsto.congr (f₁ := fun p => 65536 * ((((a p : ℝ) / kqScale p) ^ (i * i))
      / (1 + 2 * ∑ j ∈ Finset.range r, ((b p : ℝ) / kqScale p) ^ ((j + 1) * (j + 1)))) + 1 / 2) (fun p => ?_) ?_
    · rw [← tapOf_div p hi, ← tapSum_div, div_div_div_cancel_right₀]
      exact pow_ne_zero _ (by exact_mod_cast kqScale_pos.ne')
    · refine (((ha.pow _).div (tendsto_const_nhds.add (tendsto_const_nhds.mul
        (tendsto_finsetSum _ fun j _ => hb.pow _))) hS.ne').const_mul _).add tendsto_const_nhds
  have hlo : (⌊unrounded t r i⌋ : ℝ) < unrounded t r i :=
    lt_of_le_of_ne (Int.floor_le _) (hk _).symm
  filter_upwards [hlim.eventually (lt_mem_nhds hlo), hlim.eventually (gt_mem_nhds (Int.lt_floor_add_one _))]
    with p h₁ h₂
  rw [roundTap_eq_floor _ (tapSum_pos _ _), Int.floor_eq_iff]
  exact ⟨h₁.le, h₂⟩

/-- Some precision decides the rounding of every coefficient of R112. -/
theorem exists_kqDecided (r : Nat) {s : Nat} (hs : 1 ≤ s) : ∃ p, kqDecided p r s = true := by
  obtain ⟨hl, hh⟩ := tendsto_base hs
  have h : ∀ i ∈ Finset.range r, ∀ᶠ p in atTop,
      roundTap (tapOf p (baseLow p s) r (i + 1)) (tapSum p (baseHigh p s) r)
        = roundTap (tapOf p (baseHigh p s) r (i + 1)) (tapSum p (baseLow p s) r) := fun i hi => by
    have hi : i + 1 ≤ r := Finset.mem_range.mp hi
    filter_upwards [eventually_roundTap (Real.exp_pos _) hl hh hi (unrounded_ne_intCast hs (by omega)),
      eventually_roundTap (Real.exp_pos _) hh hl hi (unrounded_ne_intCast hs (by omega))] with p h₁ h₂
    exact_mod_cast h₁.trans h₂.symm
  obtain ⟨p, hp⟩ := ((Finset.eventually_all _).mpr h).exists
  refine ⟨p, ?_⟩
  rw [kqDecided, beq_iff_eq, outerTaps, outerTaps]
  exact List.map_congr_left fun i hi => hp i (Finset.mem_range.mpr (List.mem_range.mp hi))

end Sys2Proof.Machine
end

