-- ==== Sys2Proof/Config.lean ====
section
/-! DEFINITION. The implementation parameters of `00_scope.md` R7: the values this hardware takes, and the ones
the spec leaves OPEN. An OPEN value is a constant with no body, so no proof can see what it is. -/

namespace Sys2Proof

/-- `BLUR_R_MAX`, the largest accepted blur radius (R7, R33). -/
abbrev Config.blurRadiusMax : Int := 15

/-- `OIL_R_MAX`, the largest accepted oil-paint radius (R7, R35). -/
abbrev Config.oilRadiusMax : Int := 15

/-- `BUCKETS_MAX`, the largest accepted oil-paint bucket count (R7, R36). -/
abbrev Config.bucketsMax : Int := 256

/-- `ID_VALUE`, the value of the `ID` register (R7, R22). -/
def Config.idValue : Word := 0x57460007#32

/-- `2^ADDR_W`, the number of byte addresses of buffer memory (R7, R50). -/
abbrev Config.addressSpace : Nat := 2 ^ 32

/-- How many bytes the scratch RAM has beyond the four it must have (R7: `SCRATCH_CAP` is OPEN, at least 4).
Assumption 5. -/
opaque Config.scratchExtra : Nat

/-- `SCRATCH_CAP` of the machine that reset describes: any number of bytes that is at least 4 (R7, R45).
A step reads the capacity from the state, never from here. Assumption 5. -/
def Config.scratchCap : Nat := Config.scratchExtra + 4

/-- The two accesses of a memory port (R12, R68). -/
inductive AccessKind where
  | read | write
deriving DecidableEq, Repr

/-- Addresses at which the platform answers every access of one kind with an error: an address with no memory does so
for both kinds, a read-only memory for writes (R51, R68). -/
structure PortError where
  kind : AccessKind
  base : Nat
  length : Nat
deriving DecidableEq, Repr

/-- The accesses that the platform always answers with an error, on the machine that reset describes (R51, R68: which
addresses exist is the platform's). A step reads them from the state. Assumption 6. -/
opaque Config.portErrors : List PortError

/-- A FREE VALUE: the byte found at an address whose content the spec calls "any value" (R68, R221), for a
use counter and the address. Assumption 7. -/
opaque Config.freeByte : Nat → Nat → Byte

end Sys2Proof
end

