-- ==== Sys2Proof/Syntax.lean ====
section
/-! DEFINITION. The register names, the register-port transactions and the instructions of WFE. WFE has no
instruction stream (`00_scope.md` R3): its instructions are the host's register accesses, the command words and
the filter operations, one constructor for each row of `spec/opcode_table.json`. -/

namespace Sys2Proof

/-- The six filter parameters, each held as a staged and as an active register (`10_state.md` R30 to R36). -/
inductive Param where
  | brightNum | brightDen | blurRadius | blurSigma | oilRadius | oilBuckets
deriving DecidableEq, Repr

/-- What one word index of the register window names (`10_state.md` R21). `reserved` is an index the table
does not list (R42). -/
inductive Reg where
  | id | cmd | status | filter | width | height | inBase | inLen | outBase | outLen
  | staged (p : Param)
  | active (p : Param)
  | kcoef (i : Fin 16)
  | reserved (index : BitVec 10)
deriving DecidableEq, Repr

/-- Whether a transaction reads or writes, and what it writes (`30_encoding.md` R70). -/
inductive Kind where
  | read
  | write (data : Word)
deriving DecidableEq, Repr

/-- One access of the register port as the host issues it (`30_encoding.md` R70, R83): `offset` is a byte
offset into the window and `width` the number of bits transferred. -/
structure Transaction where
  kind : Kind
  offset : BitVec 12
  width : Nat
deriving DecidableEq, Repr

/-- The two places an instruction is decoded from (`30_encoding.md` R83): a transaction on the register port,
or the filter selector that the job latch holds. -/
inductive Code where
  | port (t : Transaction)
  | selector (code : Word)
deriving DecidableEq, Repr

/-- Why a transaction is no defined access (`20_memory.md` R57). -/
inductive Reject where
  /-- The transfer is not 32 bits wide. -/
  | width
  /-- The offset is not a multiple of 4. -/
  | alignment
deriving DecidableEq, Repr

/-- The instructions, in the order of `spec/opcode_table.json`. -/
inductive Instr where
  /-- `WR`: a register write (R170). -/
  | wr (reg : Reg) (data : Word)
  /-- `RD`: a register read (R171). -/
  | rd (reg : Reg)
  /-- `COMMIT`: command word 1 (R176). -/
  | commit
  /-- `PROCESS`: command word 2 (R177). -/
  | process
  /-- `CLEAR`: command word 3 (R180). -/
  | clear
  /-- `CMD_RESERVED`: any other command word (R75, R181). -/
  | cmdReserved (word : Word)
  /-- `NONE`: filter code 0, the identity copy (R121). -/
  | none
  /-- `INVERT`: filter code 1 (R122). -/
  | invert
  /-- `GRAYSCALE`: filter code 2 (R123). -/
  | grayscale
  /-- `SEPIA`: filter code 3 (R124). -/
  | sepia
  /-- `BRIGHTNESS`: filter code 4 (R125). -/
  | brightness
  /-- `BLUR`: filter code 5 (R140). -/
  | blur
  /-- `EDGE`: filter code 6 (R150). -/
  | edge
  /-- `OILPAINT`: filter code 7 (R160). -/
  | oilpaint
  /-- `FILTER_UNSUPPORTED`: any filter code from 8 on (R77, R179). -/
  | filterUnsupported (code : Word)
deriving DecidableEq, Repr

end Sys2Proof
end

