-- ==== Sys2Proof/Machine/State.lean ====
section
/-! DEFINITION. The state of one WFE instance together with the buffer memory and the inputs it shares with the
host, as plain data; the ways a step can stop; and the state after reset (`10_state.md`, `70_reset_and_hazards.md`
R220). -/

namespace Sys2Proof.Machine

/-- A byte store: (address, byte) pairs at strictly rising addresses, none of them equal to what an unlisted
address reads as (`unlistedByte` in Machine/Ops.lean). It holds buffer memory and the scratch RAM. -/
abbrev Memory := List Host.Cell

/-- The codes of `STATUS.PERR` that R200 lists; no other code is ever written. -/
inductive ProcessCode where
  | ok | invalidGeometry | bufferOverlap | unsupportedFilter | capacity
deriving DecidableEq, Repr

/-- The codes of `STATUS.CERR` that R200 lists; no other code is ever written. -/
inductive CommitCode where
  | ok | invalidParameter
deriving DecidableEq, Repr

/-- The fields of `STATUS` (R24). Bits 31:12 read 0 and hold nothing. -/
structure Status where
  busy : Bool
  done : Bool
  ovr : Bool
  badcmd : Bool
  perr : ProcessCode
  cerr : CommitCode
deriving DecidableEq, Repr

/-- One set of the six parameter registers, staged or active (R30 to R36). -/
structure Params where
  brightNum : Word
  brightDen : Word
  blurRadius : Word
  blurSigma : Word
  oilRadius : Word
  oilBuckets : Word
deriving DecidableEq, Repr

/-- The kernel coefficients: one of 17 bits for each offset magnitude 0 to 15; bits 31:17 of a `KCOEF` register
read 0 and hold nothing (R38, R82). -/
abbrev KernelFile := Vector (BitVec 17) 16

/-- The job latch J (R44). The numbers are the values of the registers as R78 to R82 read them. -/
structure Job where
  filter : Word
  width : Nat
  height : Nat
  inBase : Nat
  outBase : Nat
  num : Int
  den : Nat
  blurRadius : Nat
  kernel : KernelFile
  oilRadius : Nat
  buckets : Nat
deriving DecidableEq, Repr

/-- What may happen next from outside the registers: one access of the host on the register port, one access
of the host to a byte of buffer memory, a turn of the engine, an error of the memory port, or the reset input (R4, R18,
R61, R68, R209, R220). -/
inductive Event where
  /-- The host issues a register access. -/
  | port (t : Transaction)
  /-- The host reads a byte of buffer memory. -/
  | load (address : BitVec 32)
  /-- The host writes a byte of buffer memory. -/
  | store (address : BitVec 32) (value : Byte)
  /-- The engine takes a turn before the next access of the host. -/
  | engine
  /-- The platform answers an access of the running job with an error, this once (R68). -/
  | memoryError (kind : AccessKind) (address : BitVec 32)
  /-- The platform asserts the reset input. -/
  | reset
deriving DecidableEq, Repr

/-- The whole state. -/
structure State where
  /-- `FILTER` (R29). -/
  filter : Word
  /-- `WIDTH` (R39). -/
  width : Word
  /-- `HEIGHT` (R39). -/
  height : Word
  /-- `IN_BASE` (R40). -/
  inBase : Word
  /-- `IN_LEN` (R40). -/
  inLen : Word
  /-- `OUT_BASE` (R41). -/
  outBase : Word
  /-- `OUT_LEN` (R41). -/
  outLen : Word
  /-- The staged registers `P_*` (R30 to R37). -/
  staged : Params
  /-- The active registers `A_*` (R30 to R37). -/
  active : Params
  /-- `KCOEF[0..15]` (R38). -/
  kcoef : KernelFile
  /-- `STATUS` (R24 to R28); `busy` is also the engine's phase (R46). -/
  status : Status
  /-- The job latch (R44). -/
  job : Job
  /-- Whether the running job has met a memory-port error, and so makes no completion step (R68). Assumption 6. -/
  stuck : Bool
  /-- The scratch RAM's bytes (R45). -/
  scratch : Memory
  /-- `SCRATCH_CAP`, the number of bytes the scratch RAM has: no step changes it (R7, R45). -/
  scratchCap : Nat
  /-- Buffer memory (R50, R51). -/
  mem : Memory
  /-- The accesses the platform always answers with an error: no step changes them (R51, R68). -/
  portErrors : List PortError
  /-- The word the register port returned at the host's last read (R70, R171). -/
  portData : Word
  /-- The byte buffer memory returned at the host's last read of it (R61, R62). -/
  loadData : Byte
  /-- What happens next, in order (R64, R209). -/
  inbox : List Event
  /-- How many times a free value was drawn: the model's own field (assumption 7). -/
  freeCount : Nat
deriving DecidableEq, Repr

/-- Why the machine stops with a fault. Neither is raised in a state that keeps `Safety.Inv`. -/
inductive Fault where
  /-- Raised by a filter operation whose latched ranges leave the 2^32 addresses of buffer memory; R53 says no
  accepted job does. Safe. -/
  | addressSpace
  /-- Raised by a spatial filter operation whose image is larger than the scratch RAM; R203 says no accepted
  job is. Safe. -/
  | scratchOverflow
deriving DecidableEq, Repr

/-- Why the machine refuses what is asked of it. -/
inductive Refusal where
  /-- Raised by an arm of exec for an instruction that has no meaning yet. Safe. -/
  | notModelled (mnemonic : String)
  /-- Raised by the step for a transaction whose effect R57 does not give. Safe. -/
  | portProtocol (why : Reject)
  /-- Raised by the step when the host writes a byte of the running job's input or output range (R61). Safe. -/
  | hostStoreDuringJob
  /-- Raised by the step when the host reads a byte of the running job's output range (R61). Safe. -/
  | hostLoadDuringJob
  /-- Raised by the step when the host access is one that the platform answers with an error (R51). Safe. -/
  | platformAddress
deriving DecidableEq, Repr

/-- What a meaning answers. -/
abbrev Result := Host.Outcome State Fault Refusal

/-- `STATUS` after reset: every field 0 (R220). -/
def Status.reset : Status :=
  { busy := false, done := false, ovr := false, badcmd := false, perr := .ok, cerr := .ok }

/-- Either parameter set after reset (R220). -/
def Params.reset : Params :=
  { brightNum := 6#32, brightDen := 5#32, blurRadius := 1#32, blurSigma := 0x00010000#32,
    oilRadius := 1#32, oilBuckets := 20#32 }

/-- `KCOEF` after reset (R21, R220). -/
def KernelFile.reset : KernelFile :=
  #v[29614#17, 17961#17, 0#17, 0#17, 0#17, 0#17, 0#17, 0#17,
     0#17, 0#17, 0#17, 0#17, 0#17, 0#17, 0#17, 0#17]

/-- The job latch after reset. R48 leaves it unspecified and says it cannot be observed: the model names zeros.
DESIGN CHOICE, assumption 4. -/
def Job.reset : Job :=
  { filter := 0#32, width := 0, height := 0, inBase := 0, outBase := 0, num := 0, den := 0,
    blurRadius := 0, kernel := Vector.replicate 16 0#17, oilRadius := 0, buckets := 0 }

/-- The machine right after reset (R220). -/
def State.reset : State :=
  { filter := 0#32, width := 0#32, height := 0#32, inBase := 0#32, inLen := 0#32, outBase := 0#32,
    outLen := 0#32, staged := Params.reset, active := Params.reset, kcoef := KernelFile.reset,
    status := Status.reset, job := Job.reset, stuck := false, scratch := [], scratchCap := Config.scratchCap,
    mem := [], portErrors := Config.portErrors, portData := 0#32, loadData := 0#8,
    inbox := [], freeCount := 0 }

end Sys2Proof.Machine
end

