-- ==== Sys2Proof/Machine/Flags.lean ====
section
/-! DEFINITION. `STATUS`: its word, and each way an event changes its fields (`10_state.md` R24 to R28,
`60_exceptions.md` R200 to R211). WFE has no arithmetic flags (R43). -/

namespace Sys2Proof.Machine

/-- The number of a `PERR` code (R200). -/
def perrNumber : ProcessCode → BitVec 4
  | .ok => 0#4
  | .invalidGeometry => 1#4
  | .bufferOverlap => 2#4
  | .unsupportedFilter => 3#4
  | .capacity => 4#4

/-- The number of a `CERR` code (R200). -/
def cerrNumber : CommitCode → BitVec 4
  | .ok => 0#4
  | .invalidParameter => 1#4

/-- The 32-bit word a read of `STATUS` returns (R24): from the top the reserved bits 31:12, `CERR`, `PERR`,
`BADCMD`, `OVR`, `DONE` and `BUSY`. -/
def statusWord (st : Status) : Word :=
  0#20 ++ cerrNumber st.cerr ++ perrNumber st.perr ++ BitVec.ofBool st.badcmd ++ BitVec.ofBool st.ovr
    ++ BitVec.ofBool st.done ++ BitVec.ofBool st.busy

/-- A `PROCESS` is accepted: `BUSY` := 1, `DONE` := 0, `PERR` := 0 (R177). -/
def statusAccepted (st : Status) : Status :=
  { st with busy := true, done := false, perr := .ok }

/-- A `PROCESS` is rejected by validation: `PERR` := the code, `DONE` := 1 (R177). -/
def statusRejected (code : ProcessCode) (st : Status) : Status :=
  { st with perr := code, done := true }

/-- A `PROCESS` is ignored because a job runs: `OVR` := 1 (R182). -/
def statusOverrun (st : Status) : Status :=
  { st with ovr := true }

/-- A job completes: `PERR` := the code, `DONE` := 1, `BUSY` := 0 (R178). -/
def statusCompleted (code : ProcessCode) (st : Status) : Status :=
  { st with perr := code, done := true, busy := false }

/-- A `COMMIT` reports its outcome: `CERR` := the code (R176). -/
def statusCommitted (code : CommitCode) (st : Status) : Status :=
  { st with cerr := code }

/-- `CLEAR`: every field but `BUSY` becomes 0 (R180). -/
def statusCleared (st : Status) : Status :=
  { st with done := false, ovr := false, badcmd := false, perr := .ok, cerr := .ok }

/-- A reserved command word was written: `BADCMD` := 1 (R181). -/
def statusBadCommand (st : Status) : Status :=
  { st with badcmd := true }

end Sys2Proof.Machine
end

