-- ==== Sys2Proof/Machine/Operands.lean ====
section
/-! DEFINITION. The operand forms: how a register word is read as a number (`30_encoding.md` R78 to R82), which
parameters are legal (`10_state.md` R31 to R36, `60_exceptions.md` R205), and the reading and writing of the
register window (`45_commands.md` R170, R171). -/

namespace Sys2Proof.Machine

/-- `sext_32`: a word as a two's-complement integer (R10, R78). -/
abbrev sext32 (w : Word) : Int := w.toInt

/-- `zext_32`: a word as an unsigned integer (R10, R81). -/
abbrev zext32 (w : Word) : Nat := w.toNat

/-- The value of a kernel coefficient, in units of 2^-16 (R82). -/
def coefficient (q : KernelFile) (i : Nat) : Nat := (q[i]?.getD 0#17).toNat

/-- One register of a parameter set. -/
def paramGet (ps : Params) : Param → Word
  | .brightNum => ps.brightNum
  | .brightDen => ps.brightDen
  | .blurRadius => ps.blurRadius
  | .blurSigma => ps.blurSigma
  | .oilRadius => ps.oilRadius
  | .oilBuckets => ps.oilBuckets

/-- A parameter set with one register replaced. -/
def paramSet (p : Param) (w : Word) (ps : Params) : Params :=
  match p with
  | .brightNum => { ps with brightNum := w }
  | .brightDen => { ps with brightDen := w }
  | .blurRadius => { ps with blurRadius := w }
  | .blurSigma => { ps with blurSigma := w }
  | .oilRadius => { ps with oilRadius := w }
  | .oilBuckets => { ps with oilBuckets := w }

/-- Whether one parameter value is legal (R31 to R36, R205). -/
def paramLegal (p : Param) (w : Word) : Bool :=
  match p with
  | .brightNum => decide (0 ≤ sext32 w)
  | .brightDen => decide (1 ≤ zext32 w)
  | .blurRadius => decide (1 ≤ sext32 w ∧ sext32 w ≤ Config.blurRadiusMax)
  | .blurSigma => decide (1 ≤ sext32 w)
  | .oilRadius => decide (1 ≤ sext32 w ∧ sext32 w ≤ Config.oilRadiusMax)
  | .oilBuckets => decide (1 ≤ sext32 w ∧ sext32 w ≤ Config.bucketsMax)

/-- Whether all six values of a set are legal: the check of `COMMIT` (R176, R208). -/
def paramsLegal (ps : Params) : Bool :=
  paramLegal .brightNum ps.brightNum && paramLegal .brightDen ps.brightDen
    && paramLegal .blurRadius ps.blurRadius && paramLegal .blurSigma ps.blurSigma
    && paramLegal .oilRadius ps.oilRadius && paramLegal .oilBuckets ps.oilBuckets

/-- What a read of a register returns: the register, and 0 for `CMD` and for a reserved index (R23, R42, R171). -/
def readReg (s : State) : Reg → Word
  | .id => Config.idValue
  | .cmd => 0#32
  | .status => statusWord s.status
  | .filter => s.filter
  | .width => s.width
  | .height => s.height
  | .inBase => s.inBase
  | .inLen => s.inLen
  | .outBase => s.outBase
  | .outLen => s.outLen
  | .staged p => paramGet s.staged p
  | .active p => paramGet s.active p
  | .kcoef i => s.kcoef[i].setWidth 32
  | .reserved _ => 0#32

/-- A write to a register other than `CMD`: an RW register stores all 32 bits, an RO register and a reserved
index ignore the write (R21, R42, R170). -/
def writeReg (reg : Reg) (w : Word) (s : State) : State :=
  match reg with
  | .filter => { s with filter := w }
  | .width => { s with width := w }
  | .height => { s with height := w }
  | .inBase => { s with inBase := w }
  | .inLen => { s with inLen := w }
  | .outBase => { s with outBase := w }
  | .outLen => { s with outLen := w }
  | .staged p => { s with staged := paramSet p w s.staged }
  | .id => s
  | .cmd => s
  | .status => s
  | .active _ => s
  | .kcoef _ => s
  | .reserved _ => s

end Sys2Proof.Machine
end

