-- ==== Sys2Proof/Machine/Kernel.lean ====
section
/-! DEFINITION. The kernel coefficient generator `KQ` (`40_primitives.md` R108 to R115), computed exactly: the
enclosure of `Machine/Enclosure.lean` at the first precision that decides the rounding of R112. Some precision does,
because no coefficient meets a tie (R112): `exists_kqDecided` of `Laws/Exponential.lean`. DEDUCED, assumption 9. -/

namespace Sys2Proof.Machine

/-- A precision that decides the rounding: 128 where that does, else the smallest one. A sigma code is at least 1
(R109). -/
def kqPrecision (r s : Nat) : Nat :=
  if kqDecided 128 r s then 128
  else if hs : 1 ≤ s then Nat.find (exists_kqDecided r hs)
  else 128

/-- q[0] … q[r] from q[1] … q[r]: the centre tap absorbs the rounding residue (R112). -/
def withCentre (outer : List Nat) : List Nat := (65536 - 2 * outer.sum) :: outer

/-- `KQ(r, s)` at a precision that decides it. -/
def kqAt (p r s : Nat) : List Nat := withCentre (outerTaps p (baseLow p s) (baseHigh p s) r)

/-- `KQ(r, s)`: the list q[0] … q[r] (R112). -/
def kq (r s : Nat) : List Nat := kqAt (kqPrecision r s) r s

/-- What a successful `COMMIT` writes to `KCOEF[0..15]`: the kernel, and 0 beyond the radius (R115, R176). -/
def kernelFile (r s : Nat) : KernelFile :=
  Vector.ofFn fun i : Fin 16 => BitVec.ofNat 17 ((kq r s).getD i.val 0)

end Sys2Proof.Machine
end

