-- ==== Sys2Proof/Machine/Ops.lean ====
section
/-! DEFINITION. The byte store that buffer memory and the scratch RAM are held in; the host's accesses to buffer
memory; the reset input; and the frame every job shares: the checks before it, its completion, and the stall on a
memory-port error (`20_memory.md`, `45_commands.md` R178, `70_reset_and_hazards.md` R220, R221). -/

namespace Sys2Proof.Machine

/-- What an address that the store does not list reads as. R51 makes buffer memory a total function whose
content is the host's; 0 is the model's choice, and it matters only for the memory of `State.reset`.
DESIGN CHOICE, assumption 3. -/
def unlistedByte : Byte := 0#8

/-- `MemRead(a, 1)` and `ScrRead(a)` (R12). -/
def readByte : Memory → Nat → Byte
  | [], _ => unlistedByte
  | (k, v) :: rest, a => if k = a then v else readByte rest a

/-- A byte put in front of cells at higher addresses, unless it is what an unlisted address reads as. -/
def consByte (a : Nat) (v : Byte) (rest : Memory) : Memory :=
  if v = unlistedByte then rest else (a, v) :: rest

/-- `MemWrite(a, 1, v)` and `ScrWrite(a, v)` (R12). It keeps the canonical form of `Memory`. -/
def writeByte : Memory → Nat → Byte → Memory
  | [], a, v => consByte a v []
  | (k, b) :: rest, a, v =>
    if a < k then consByte a v ((k, b) :: rest)
    else if a = k then consByte a v rest
    else (k, b) :: writeByte rest a v

/-- Writing `f 0 … f (n-1)` to the `n` addresses from `base` on. -/
def writeRun (m : Memory) (base : Nat) (f : Nat → Byte) : Nat → Memory
  | 0 => m
  | n + 1 => writeByte (writeRun m base f n) (base + n) (f n)

/-- The canonical form: addresses strictly rising, and no cell that holds what an unlisted address reads as. -/
abbrev MemoryWf (m : Memory) : Prop :=
  m.Pairwise (fun c d => c.1 < d.1) ∧ ∀ c ∈ m, c.2 ≠ unlistedByte

/-- Every listed address lies below a bound. -/
abbrev MemoryBelow (bound : Nat) (m : Memory) : Prop :=
  ∀ c ∈ m, c.1 < bound

/-- Whether the platform answers every access of this kind to this address with an error (R68). -/
def addressFails (errors : List PortError) (kind : AccessKind) (a : Nat) : Bool :=
  errors.any fun e => e.kind == kind && e.base ≤ a && a < e.base + e.length

/-- Whether no access of this kind to the `n` addresses from `base` on is answered with an error. -/
def rangeAnswers (errors : List PortError) (kind : AccessKind) (base : Nat) : Nat → Bool
  | 0 => true
  | n + 1 => !addressFails errors kind (base + n) && rangeAnswers errors kind base n

/-- The number of bytes of a job's image, `J.W·J.H·4` (R52). -/
def jobBytes (j : Job) : Nat := j.width * j.height * 4

/-- Whether an address lies in the input range of a job (R55). -/
def inInput (j : Job) (a : Nat) : Bool := j.inBase ≤ a && a < j.inBase + jobBytes j

/-- Whether an address lies in the output range of a job (R55). -/
def inOutput (j : Job) (a : Nat) : Bool := j.outBase ≤ a && a < j.outBase + jobBytes j

/-- Whether a job makes an access of this kind to this address: it reads its input range and writes its output range
(R55). -/
def jobAccesses (j : Job) : AccessKind → Nat → Bool
  | .read, a => inInput j a
  | .write, a => inOutput j a

/-- Every byte of the output range takes any value: a fresh free value for each (R68, R221). Assumption 7. -/
def scrambleOutput (s : State) : State :=
  { s with
    mem := writeRun s.mem s.job.outBase (fun k => Config.freeByte s.freeCount (s.job.outBase + k)) (jobBytes s.job)
    freeCount := s.freeCount + 1 }

/-- A job met a memory-port error: it is stuck, so that it makes no completion step and `BUSY` stays 1, and what it
wrote to its output range is any value (R68). Assumption 6. -/
def stallJob (s : State) : State := { scrambleOutput s with stuck := true }

/-- The platform answers an access with an error, this once (R68): a job that makes the access is stuck. There is no such
access when no job runs (R55), and a stuck job stays as it is. Assumption 6. -/
def portError (kind : AccessKind) (address : BitVec 32) (s : State) : State :=
  if s.status.busy = true ∧ s.stuck = false ∧ jobAccesses s.job kind address.toNat = true then stallJob s else s

/-- Completion of a job (R178), after its memory effect. The latch and the scratch RAM keep what the job left in them
until the next job writes them: while no job runs their content is any value, and nothing observes it (R44, R45, R47).
DESIGN CHOICE, assumption 4. -/
def completeJob (code : ProcessCode) (s : State) : State :=
  { s with status := statusCompleted code s.status }

/-- A turn of the engine that runs a filter operation on the latched job (R178, R207).
With no job there is nothing to complete (R25, R178: enabled exactly when `BUSY` = 1), and a stuck job makes no
completion step (R68). The job reads its whole input range and writes its whole output range (R55). `effect` is the memory
effect, performed atomically as R178 allows, and `code` the `PERR` of the completion. `spatial` says that the
operation uses the scratch RAM. -/
def runJob (spatial : Bool) (code : ProcessCode) (effect : State → State) (s : State) : Result :=
  if s.status.busy = false ∨ s.stuck = true then .next s
  else if Config.addressSpace < s.job.inBase + jobBytes s.job
      ∨ Config.addressSpace < s.job.outBase + jobBytes s.job then .fault .addressSpace
  else if spatial = true ∧ s.scratchCap < jobBytes s.job then .fault .scratchOverflow
  else if rangeAnswers s.portErrors .read s.job.inBase (jobBytes s.job) = true
      ∧ rangeAnswers s.portErrors .write s.job.outBase (jobBytes s.job) = true then .next (completeJob code (effect s))
  else .next (stallJob s)

/-- The host reads a byte of buffer memory. It may not read the output range of a running job (R61). -/
def hostLoad (address : BitVec 32) (s : State) : Result :=
  if addressFails s.portErrors .read address.toNat = true then .refused .platformAddress
  else if s.status.busy = true ∧ inOutput s.job address.toNat = true then .refused .hostLoadDuringJob
  else .next { s with loadData := readByte s.mem address.toNat }

/-- The host writes a byte of buffer memory. It may write neither range of a running job (R61). -/
def hostStore (address : BitVec 32) (value : Byte) (s : State) : Result :=
  if addressFails s.portErrors .write address.toNat = true then .refused .platformAddress
  else if s.status.busy = true ∧ (inInput s.job address.toNat = true ∨ inOutput s.job address.toNat = true) then
    .refused .hostStoreDuringJob
  else .next { s with mem := writeByte s.mem address.toNat value }

/-- The registers, the latch and the scratch RAM at their reset values; what does not belong to WFE stays: buffer
memory, the size of the scratch RAM, the platform's address map, the words the host holds, and what the host does
next (R220). -/
def resetRegisters (s : State) : State :=
  { State.reset with
    mem := s.mem
    scratchCap := s.scratchCap
    portErrors := s.portErrors
    portData := s.portData
    loadData := s.loadData
    inbox := s.inbox
    freeCount := s.freeCount }

/-- The reset input (R220). A running job is abandoned and every byte of its output range takes any value (R221). -/
def hardwareReset (s : State) : State :=
  if s.status.busy = true then resetRegisters (scrambleOutput s) else resetRegisters s

end Sys2Proof.Machine
end

