-- ==== Sys2Proof/Machine/Commands.lean ====
section
/-! DEFINITION. The command words: `COMMIT`, `PROCESS`, `CLEAR` and the reserved words (`45_commands.md` R175 to
R183, `60_exceptions.md` R200 to R211). -/

namespace Sys2Proof.Machine

/-- `COMMIT`: validate the whole staged set and make it active (R176, R205). -/
def commitCommand (s : State) : State :=
  if paramsLegal s.staged then
    { s with
      active := s.staged
      kcoef := kernelFile (sext32 s.staged.blurRadius).toNat (sext32 s.staged.blurSigma).toNat
      status := statusCommitted .ok s.status }
  else { s with status := statusCommitted .invalidParameter s.status }

/-- Whether a filter selector names a filter that uses the scratch RAM (R76, R203). -/
def usesScratch (filter : Word) : Bool :=
  filter == 5#32 || filter == 6#32 || filter == 7#32

/-- The first check of `PROCESS` that applies, after `BUSY`, in the order of R207; none when the job is
accepted. Everything is computed exactly (R201). -/
def processCheck (s : State) : Option ProcessCode :=
  let w := sext32 s.width
  let h := sext32 s.height
  let n := w * h * 4
  let ib : Int := zext32 s.inBase
  let ob : Int := zext32 s.outBase
  if w ≤ 0 ∨ h ≤ 0 then some .invalidGeometry
  else if (zext32 s.inLen : Int) ≠ n ∨ (zext32 s.outLen : Int) ≠ n then some .invalidGeometry
  else if ib + n > Config.addressSpace ∨ ob + n > Config.addressSpace then some .invalidGeometry
  else if ib ≠ ob ∧ ((ib - ob).natAbs : Int) < n then some .bufferOverlap
  else if usesScratch s.filter = true ∧ n > s.scratchCap then some .capacity
  else none

/-- The job that an accepted `PROCESS` latches (R44, R177). -/
def latchedJob (s : State) : Job :=
  { filter := s.filter
    width := (sext32 s.width).toNat
    height := (sext32 s.height).toNat
    inBase := zext32 s.inBase
    outBase := zext32 s.outBase
    num := sext32 s.active.brightNum
    den := zext32 s.active.brightDen
    blurRadius := (sext32 s.active.blurRadius).toNat
    kernel := s.kcoef
    oilRadius := (sext32 s.active.oilRadius).toNat
    buckets := (sext32 s.active.oilBuckets).toNat }

/-- `PROCESS`: ignored while a job runs, else rejected by the first check that applies, else accepted (R177,
R182). -/
def processCommand (s : State) : State :=
  if s.status.busy = true then { s with status := statusOverrun s.status }
  else
    match processCheck s with
    | some code => { s with status := statusRejected code s.status }
    | none => { s with job := latchedJob s, status := statusAccepted s.status }

/-- `CLEAR` (R180). -/
def clearCommand (s : State) : State :=
  { s with status := statusCleared s.status }

/-- A reserved command word (R181). -/
def reservedCommand (s : State) : State :=
  { s with status := statusBadCommand s.status }

/-- The command that a word written to `CMD` executes (R175). -/
def commandWrite (word : Word) (s : State) : State :=
  if word = 1#32 then commitCommand s
  else if word = 2#32 then processCommand s
  else if word = 3#32 then clearCommand s
  else reservedCommand s

/-- `COMMIT` (R176). -/
def execCommit (s : State) : Result := .next (commitCommand s)

/-- `PROCESS` (R177). -/
def execProcess (s : State) : Result := .next (processCommand s)

/-- `CLEAR` (R180). -/
def execClear (s : State) : Result := .next (clearCommand s)

/-- `CMD_RESERVED` (R181): the word itself leaves no trace but `BADCMD` (R200). -/
def execCmdReserved (_word : Word) (s : State) : Result := .next (reservedCommand s)

end Sys2Proof.Machine
end

