-- ==== Sys2Proof/Machine/Access.lean ====
section
/-! DEFINITION. The register accesses `WR` and `RD` (`45_commands.md` R170 to R174). -/

namespace Sys2Proof.Machine

/-- `WR` (R170): a write to `CMD` executes the command of R175, any other write goes to the register. -/
def execWr (reg : Reg) (data : Word) (s : State) : Result :=
  if reg = .cmd then .next (commandWrite data s) else .next (writeReg reg data s)

/-- `RD` (R171): the port returns the register's value, and nothing else changes (R58). -/
def execRd (reg : Reg) (s : State) : Result :=
  .next { s with portData := readReg s reg }

end Sys2Proof.Machine
end

