-- ==== Sys2Proof/Machine/Image.lean ====
section
/-! DEFINITION. The shared primitives of `40_primitives.md`: pixels and their layout in a byte store (R52, R100),
the boundary sampler (R101, R102), the channel saturator in its three forms (R103 to R106), and the two shapes a
filter operation has, pointwise (R120) and staged through the scratch RAM (R140, R153, R160). -/

namespace Sys2Proof.Machine

/-- One RGBA8 pixel (R12, R16). -/
structure Pixel where
  r : Byte
  g : Byte
  b : Byte
  a : Byte
deriving DecidableEq, Repr

/-- The channels in the order of their offsets (R52). -/
inductive Channel where
  | r | g | b | a
deriving DecidableEq, Repr

/-- A channel of a pixel. -/
def channelOf (p : Pixel) : Channel → Byte
  | .r => p.r
  | .g => p.g
  | .b => p.b
  | .a => p.a

/-- The channel at an offset within a pixel's four bytes (R52). -/
def channelAt : Nat → Channel
  | 0 => .r
  | 1 => .g
  | 2 => .b
  | _ => .a

/-- An image: the pixel at column x and row y (R14). -/
abbrev Image := Nat → Nat → Pixel

/-- `index(x, y)` of an image of width `w` (R100). -/
def pixelIndex (w x y : Nat) : Nat := (y * w + x) * 4

/-- The image of width `w` that a byte store holds from `base` on (R52). -/
def readImage (m : Memory) (base w : Nat) : Image := fun x y =>
  { r := readByte m (base + pixelIndex w x y)
    g := readByte m (base + pixelIndex w x y + 1)
    b := readByte m (base + pixelIndex w x y + 2)
    a := readByte m (base + pixelIndex w x y + 3) }

/-- Byte `k` of an image of width `w`, row-major with four bytes a pixel (R52). -/
def imageByte (img : Image) (w k : Nat) : Byte :=
  channelOf (img (k / 4 % w) (k / 4 / w)) (channelAt (k % 4))

/-- Writing an image of `w` by `h` pixels to a byte store from `base` on (R52). -/
def writeImage (m : Memory) (base w h : Nat) (img : Image) : Memory :=
  writeRun m base (imageByte img w) (w * h * 4)

/-- The boundary sampler `clamp(coord, limit)` (R101). -/
def clampCoord (coord : Int) (limit : Nat) : Nat :=
  (max 0 (min coord ((limit : Int) - 1))).toNat

/-- The clamped sample `S_img(x, y)` of an image of `w` by `h` pixels (R102). -/
def sample (img : Image) (w h : Nat) (x y : Int) : Pixel :=
  img (clampCoord x w) (clampCoord y h)

/-- `Sat(p / d)` for an integer p and d ≥ 1: round half up, then saturate to 0 … 255 (R103, R104). -/
def sat (p : Int) (d : Nat) : Byte :=
  BitVec.ofNat 8 (min 255 (max 0 ((2 * p + d) / (2 * d)))).toNat

/-- `SatK(acc)` for an accumulator in units of 2^-16 (R105). -/
def satK (acc : Nat) : Byte :=
  BitVec.ofNat 8 (min 255 ((acc + 32768) / 65536))

/-- The bits of the integer square root from bit `n - 1` down, added to `k`. -/
def isqrtBits (m : Nat) : Nat → Nat → Nat
  | 0, k => k
  | n + 1, k => if (k + 2 ^ n) * (k + 2 ^ n) ≤ m then isqrtBits m n (k + 2 ^ n) else isqrtBits m n k

/-- `isqrt(m)`: the largest k with k·k ≤ m (R10). -/
def isqrt (m : Nat) : Nat := isqrtBits m (m.log2 / 2 + 1) 0

/-- `SatSqrt(m)`: the square root rounded half up and saturated (R106). -/
def satSqrt (m : Nat) : Byte :=
  BitVec.ofNat 8 (min 255 (if m - isqrt m * isqrt m > isqrt m then isqrt m + 1 else isqrt m))

/-- The offsets -r … r of a neighbourhood, in rising order (R110, R162). -/
def offsets (r : Nat) : List Int :=
  (List.range (2 * r + 1)).map fun k : Nat => (k : Int) - r

/-- The input image of the latched job, as buffer memory holds it (R44, R53). -/
def inputImage (s : State) : Image := readImage s.mem s.job.inBase s.job.width

/-- The output image of the latched job, as buffer memory holds it (R44, R53). -/
def outputImage (s : State) : Image := readImage s.mem s.job.outBase s.job.width

/-- The intermediate image `tmp` of the latched job, as the scratch RAM holds it (R45). -/
def scratchImage (s : State) : Image := readImage s.scratch 0 s.job.width

/-- The common pointwise loop: `f` is applied to every pixel of the input (R120). -/
def pointwiseEffect (f : Pixel → Pixel) (s : State) : State :=
  { s with
    mem := writeImage s.mem s.job.outBase s.job.width s.job.height (fun x y => f (inputImage s x y)) }

/-- The first phase of a spatial filter: the whole of `tmp` is written from the input image (R141, R153, R160). -/
def fillScratch (phase1 : Image → Image) (s : State) : State :=
  { s with scratch := writeImage s.scratch 0 s.job.width s.job.height (phase1 (inputImage s)) }

/-- The second phase: the whole output image is written from `tmp` (R142, R153, R160). -/
def drainScratch (phase2 : Image → Image) (s : State) : State :=
  { s with mem := writeImage s.mem s.job.outBase s.job.width s.job.height (phase2 (scratchImage s)) }

/-- A spatial filter: every write of phase 1 precedes every read of phase 2 (R60, R143, R153). -/
def stagedEffect (phase1 phase2 : Image → Image) (s : State) : State :=
  drainScratch phase2 (fillScratch phase1 s)

end Sys2Proof.Machine
end

