-- ==== Sys2Proof/Machine/Blur.lean ====
section
/-! DEFINITION. The separable FIR blur engine (`42_blur.md`). -/

namespace Sys2Proof.Machine

/-- One pass's accumulator: the samples at offsets -r … r, each with the weight of its offset's magnitude (R110,
R141, R142). -/
def blurAcc (q : KernelFile) (r : Nat) (at_ : Int → Byte) : Nat :=
  ((offsets r).map fun i => (at_ i).toNat * coefficient q i.natAbs).sum

/-- One pass at one pixel: each colour channel is `SatK` of its accumulator and alpha is copied (R141, R142). -/
def blurPixel (q : KernelFile) (r : Nat) (at_ : Int → Pixel) (alpha : Byte) : Pixel :=
  { r := satK (blurAcc q r fun i => (at_ i).r)
    g := satK (blurAcc q r fun i => (at_ i).g)
    b := satK (blurAcc q r fun i => (at_ i).b)
    a := alpha }

/-- Pass 1, horizontal (R141). -/
def blurRows (q : KernelFile) (r w : Nat) (img : Image) : Image := fun x y =>
  blurPixel q r (fun i => img (clampCoord (x + i) w) y) (img x y).a

/-- Pass 2, vertical (R142). -/
def blurColumns (q : KernelFile) (r h : Nat) (img : Image) : Image := fun x y =>
  blurPixel q r (fun i => img x (clampCoord (y + i) h)) (img x y).a

/-- `BLUR` (R140): both passes use the latched radius and kernel (R144). -/
def execBlur (s : State) : Result :=
  runJob true .ok
    (stagedEffect (blurRows s.job.kernel s.job.blurRadius s.job.width)
      (blurColumns s.job.kernel s.job.blurRadius s.job.height)) s

end Sys2Proof.Machine
end

