-- ==== Sys2Proof/Machine/Edge.lean ====
section
/-! DEFINITION. The Sobel edge detector (`43_sobel.md`). -/

namespace Sys2Proof.Machine

/-- The value of one channel of a pixel as an integer. -/
def channelValue (c : Channel) (p : Pixel) : Int := ((channelOf p c).toNat : Int)

/-- `gx` at an interior pixel (R151). -/
def sobelX (img : Image) (c : Channel) (x y : Nat) : Int :=
  let v := fun x y => channelValue c (img x y)
  (v (x + 1) (y - 1) + 2 * v (x + 1) y + v (x + 1) (y + 1))
    - (v (x - 1) (y - 1) + 2 * v (x - 1) y + v (x - 1) (y + 1))

/-- `gy` at an interior pixel (R151). -/
def sobelY (img : Image) (c : Channel) (x y : Nat) : Int :=
  let v := fun x y => channelValue c (img x y)
  (v (x - 1) (y + 1) + 2 * v x (y + 1) + v (x + 1) (y + 1))
    - (v (x - 1) (y - 1) + 2 * v x (y - 1) + v (x + 1) (y - 1))

/-- The magnitude of one channel at an interior pixel (R152). -/
def sobelMagnitude (img : Image) (c : Channel) (x y : Nat) : Byte :=
  satSqrt (sobelX img c x y * sobelX img c x y + sobelY img c x y * sobelY img c x y).toNat

/-- Whether a pixel is interior (R16, R150). -/
def isInterior (w h x y : Nat) : Bool :=
  decide (1 ≤ x ∧ x + 1 < w ∧ 1 ≤ y ∧ y + 1 < h)

/-- Phase 1: magnitudes at interior pixels, a copy at border pixels, alpha copied everywhere (R150, R154). -/
def sobelImage (w h : Nat) (img : Image) : Image := fun x y =>
  if isInterior w h x y then
    { r := sobelMagnitude img .r x y
      g := sobelMagnitude img .g x y
      b := sobelMagnitude img .b x y
      a := (img x y).a }
  else img x y

/-- `EDGE` (R150): phase 2 copies the scratch image to the output (R153). -/
def execEdge (s : State) : Result :=
  runJob true .ok (stagedEffect (sobelImage s.job.width s.job.height) fun img => img) s

end Sys2Proof.Machine
end

