-- ==== Sys2Proof/Machine/OilPaint.lean ====
section
/-! DEFINITION. The spatial quantizer, oil-paint (`44_oilpaint.md`). -/

namespace Sys2Proof.Machine

/-- `intensity(R, G, B)`, by floor division (R161). -/
def intensity (p : Pixel) : Nat := (p.r.toNat + p.g.toNat + p.b.toNat) / 3

/-- `bin(R, G, B)` for a bucket count (R161). -/
def bucketOf (buckets : Nat) (p : Pixel) : Nat := intensity p * buckets / 256

/-- The (2r+1)² clamped samples around a pixel, one for each offset (R162). -/
def neighbourhood (img : Image) (w h r x y : Nat) : List Pixel :=
  (offsets r).flatMap fun dy => (offsets r).map fun dx => sample img w h (x + dx) (y + dy)

/-- The samples that fall in one bucket (R160). -/
def bucketSamples (buckets : Nat) (samples : List Pixel) (b : Nat) : List Pixel :=
  samples.filter fun p => bucketOf buckets p == b

/-- The smallest of the indices 0 … n-1 whose count is the largest (R163). -/
def bestBucket (count : Nat → Nat) : Nat → Nat
  | 0 => 0
  | n + 1 =>
    let best := bestBucket count n
    if count best < count n then n else best

/-- The samples of the winning bucket (R163). -/
def winningSamples (buckets : Nat) (samples : List Pixel) : List Pixel :=
  bucketSamples buckets samples
    (bestBucket (fun b => (bucketSamples buckets samples b).length) buckets)

/-- The mean of one channel over some samples, rounded by the saturator (R164). -/
def channelMean (c : Channel) (samples : List Pixel) : Byte :=
  sat ((samples.map fun p => (channelOf p c).toNat).sum : Nat) samples.length

/-- Phase 1: the mean colour of the winning bucket, alpha from the pixel itself (R164, R165). -/
def oilImage (w h r buckets : Nat) (img : Image) : Image := fun x y =>
  let winners := winningSamples buckets (neighbourhood img w h r x y)
  { r := channelMean .r winners
    g := channelMean .g winners
    b := channelMean .b winners
    a := (img x y).a }

/-- `OILPAINT` (R160): phase 2 copies the scratch image to the output. -/
def execOilpaint (s : State) : Result :=
  runJob true .ok
    (stagedEffect (oilImage s.job.width s.job.height s.job.oilRadius s.job.buckets) fun img => img) s

end Sys2Proof.Machine
end

