-- ==== Sys2Proof/Machine/Pointwise.lean ====
section
/-! DEFINITION. The colour-space transform unit (`41_pointwise.md`): None, Invert, Grayscale, Sepia, Brightness,
and the unsupported selectors, which copy (`45_commands.md` R179). -/

namespace Sys2Proof.Machine

/-- `NONE` leaves a pixel as it is (R121). -/
def nonePixel (p : Pixel) : Pixel := p

/-- `INVERT` (R122). -/
def invertPixel (p : Pixel) : Pixel :=
  { p with r := 255#8 - p.r, g := 255#8 - p.g, b := 255#8 - p.b }

/-- The sum of the three colour channels with weights in thousandths (R123, R124). -/
def weightedSum (kr kg kb : Nat) (p : Pixel) : Nat :=
  kr * p.r.toNat + kg * p.g.toNat + kb * p.b.toNat

/-- `GRAYSCALE` (R123). -/
def grayscalePixel (p : Pixel) : Pixel :=
  let gray := sat (weightedSum 299 587 114 p) 1000
  { p with r := gray, g := gray, b := gray }

/-- `SEPIA` (R124): all three sums read the input channels. -/
def sepiaPixel (p : Pixel) : Pixel :=
  { p with
    r := sat (weightedSum 393 769 189 p) 1000
    g := sat (weightedSum 349 686 168 p) 1000
    b := sat (weightedSum 272 534 131 p) 1000 }

/-- `BRIGHTNESS` by the factor `num / den` (R125). -/
def brightnessPixel (num : Int) (den : Nat) (p : Pixel) : Pixel :=
  { p with
    r := sat (p.r.toNat * num) den
    g := sat (p.g.toNat * num) den
    b := sat (p.b.toNat * num) den }

/-- `NONE` (R121). -/
def execNone (s : State) : Result :=
  runJob false .ok (pointwiseEffect nonePixel) s

/-- `INVERT` (R122). -/
def execInvert (s : State) : Result :=
  runJob false .ok (pointwiseEffect invertPixel) s

/-- `GRAYSCALE` (R123). -/
def execGrayscale (s : State) : Result :=
  runJob false .ok (pointwiseEffect grayscalePixel) s

/-- `SEPIA` (R124). -/
def execSepia (s : State) : Result :=
  runJob false .ok (pointwiseEffect sepiaPixel) s

/-- `BRIGHTNESS` (R125), by the latched factor. -/
def execBrightness (s : State) : Result :=
  runJob false .ok (pointwiseEffect (brightnessPixel s.job.num s.job.den)) s

/-- `FILTER_UNSUPPORTED` (R77, R179, R204): the identity copy, reported as code 3 whatever the selector is. -/
def execFilterUnsupported (_code : Word) (s : State) : Result :=
  runJob false .unsupportedFilter (pointwiseEffect nonePixel) s

end Sys2Proof.Machine
end

