-- ==== Sys2Proof/Machine/Dispatch.lean ====
section
/-! DEFINITION. exec: one arm for each instruction of Sys2Proof/Syntax.lean. -/

namespace Sys2Proof.Machine

def exec (i : Instr) (s : State) : Host.Outcome State Fault Refusal :=
  match i with
  -- register accesses
  | .wr reg data => Sys2Proof.Machine.execWr reg data s
  | .rd reg => Sys2Proof.Machine.execRd reg s
  -- command words
  | .commit => Sys2Proof.Machine.execCommit s
  | .process => Sys2Proof.Machine.execProcess s
  | .clear => Sys2Proof.Machine.execClear s
  | .cmdReserved word => Sys2Proof.Machine.execCmdReserved word s
  -- filter operations
  | .none => Sys2Proof.Machine.execNone s
  | .invert => Sys2Proof.Machine.execInvert s
  | .grayscale => Sys2Proof.Machine.execGrayscale s
  | .sepia => Sys2Proof.Machine.execSepia s
  | .brightness => Sys2Proof.Machine.execBrightness s
  | .blur => Sys2Proof.Machine.execBlur s
  | .edge => Sys2Proof.Machine.execEdge s
  | .oilpaint => Sys2Proof.Machine.execOilpaint s
  | .filterUnsupported code => Sys2Proof.Machine.execFilterUnsupported code s

end Sys2Proof.Machine
end

