-- ==== Sys2Proof/WellFormed.lean ====
section
/-! DEFINITION. Which instruction terms some transaction or selector stands for. -/

namespace Sys2Proof

/-- The word indices `offset[11:2]` that the register table lists (`10_state.md` R21, `30_encoding.md` R71). -/
def listedIndex (n : Nat) : Bool :=
  n < 10 || (16 ≤ n && n < 22) || (32 ≤ n && n < 38) || (64 ≤ n && n < 80)

/-- A register name is well formed when a reserved index is one the table does not list (R42). -/
def Reg.wellFormed : Reg → Bool
  | .reserved index => !listedIndex index.toNat
  | _ => true

/-- A write to `CMD` is a command, not a `WR` (R83); a reserved command word is none of the three defined ones
(R75); an unsupported selector is 8 or more (R77). -/
def Instr.wellFormed : Instr → Bool
  | .wr reg _ => reg.wellFormed && reg != .cmd
  | .rd reg => reg.wellFormed
  | .cmdReserved word => word != 1#32 && word != 2#32 && word != 3#32
  | .filterUnsupported code => 8 ≤ code.toNat
  | .commit => true
  | .process => true
  | .clear => true
  | .none => true
  | .invert => true
  | .grayscale => true
  | .sepia => true
  | .brightness => true
  | .blur => true
  | .edge => true
  | .oilpaint => true

end Sys2Proof
end

