-- ==== Sys2Proof/Decode.lean ====
section
/-! DEFINITION. The decoder of `30_encoding.md` R83, total on every transaction and every selector, and the
encoder that writes a well-formed instruction back from the same tables. -/

namespace Sys2Proof

/-- Which register a word index `offset[11:2]` selects (`10_state.md` R21, `30_encoding.md` R71). -/
def regOfIndex (index : BitVec 10) : Reg :=
  match index.toNat with
  | 0 => .id
  | 1 => .cmd
  | 2 => .status
  | 3 => .filter
  | 4 => .width
  | 5 => .height
  | 6 => .inBase
  | 7 => .inLen
  | 8 => .outBase
  | 9 => .outLen
  | 16 => .staged .brightNum
  | 17 => .staged .brightDen
  | 18 => .staged .blurRadius
  | 19 => .staged .blurSigma
  | 20 => .staged .oilRadius
  | 21 => .staged .oilBuckets
  | 32 => .active .brightNum
  | 33 => .active .brightDen
  | 34 => .active .blurRadius
  | 35 => .active .blurSigma
  | 36 => .active .oilRadius
  | 37 => .active .oilBuckets
  | n => if 64 ≤ n ∧ n < 80 then .kcoef (Fin.ofNat 16 (n - 64)) else .reserved index

/-- The word index of a register within its block of six parameters. -/
def indexOfParam : Param → Nat
  | .brightNum => 0
  | .brightDen => 1
  | .blurRadius => 2
  | .blurSigma => 3
  | .oilRadius => 4
  | .oilBuckets => 5

/-- The word index of a register, the inverse of `regOfIndex`. -/
def indexOfReg : Reg → BitVec 10
  | .id => 0#10
  | .cmd => 1#10
  | .status => 2#10
  | .filter => 3#10
  | .width => 4#10
  | .height => 5#10
  | .inBase => 6#10
  | .inLen => 7#10
  | .outBase => 8#10
  | .outLen => 9#10
  | .staged p => BitVec.ofNat 10 (16 + indexOfParam p)
  | .active p => BitVec.ofNat 10 (32 + indexOfParam p)
  | .kcoef i => BitVec.ofNat 10 (64 + i.val)
  | .reserved index => index

/-- The byte offset of a register: its word index with two zero bits below it (R71). -/
def offsetOfReg (reg : Reg) : BitVec 12 :=
  indexOfReg reg ++ 0#2

/-- The command a word written to `CMD` stands for: the whole word must match (R73 to R75). -/
def decodeCommand (word : Word) : Instr :=
  if word = 1#32 then .commit
  else if word = 2#32 then .process
  else if word = 3#32 then .clear
  else .cmdReserved word

/-- The filter operation a selector stands for: all 32 bits are compared (R76, R77). -/
def decodeSelector (code : Word) : Instr :=
  match code.toNat with
  | 0 => .none
  | 1 => .invert
  | 2 => .grayscale
  | 3 => .sepia
  | 4 => .brightness
  | 5 => .blur
  | 6 => .edge
  | 7 => .oilpaint
  | _ => .filterUnsupported code

/-- The instruction a transaction stands for (R83): a wrong width or an unaligned offset is rejected by name. -/
def decodeTransaction (t : Transaction) : Except Reject Instr :=
  if t.width ≠ 32 then .error .width
  else if t.offset.extractLsb' 0 2 ≠ 0#2 then .error .alignment
  else
    match t.kind, regOfIndex (t.offset.extractLsb' 2 10) with
    | .read, reg => .ok (.rd reg)
    | .write data, .cmd => .ok (decodeCommand data)
    | .write data, reg => .ok (.wr reg data)

/-- The decoder of R83. -/
def decode : Code → Except Reject Instr
  | .port t => decodeTransaction t
  | .selector code => .ok (decodeSelector code)

/-- The transaction that writes `data` to a register, 32 bits wide (R70). -/
def writeOf (reg : Reg) (data : Word) : Transaction :=
  { kind := .write data, offset := offsetOfReg reg, width := 32 }

/-- The transaction that reads a register, 32 bits wide (R70). -/
def readOf (reg : Reg) : Transaction :=
  { kind := .read, offset := offsetOfReg reg, width := 32 }

/-- The encoder: the transaction or the selector of an instruction (R70, R74, R76). -/
def encode : Instr → Code
  | .wr reg data => .port (writeOf reg data)
  | .rd reg => .port (readOf reg)
  | .commit => .port (writeOf .cmd 1#32)
  | .process => .port (writeOf .cmd 2#32)
  | .clear => .port (writeOf .cmd 3#32)
  | .cmdReserved word => .port (writeOf .cmd word)
  | .none => .selector 0#32
  | .invert => .selector 1#32
  | .grayscale => .selector 2#32
  | .sepia => .selector 3#32
  | .brightness => .selector 4#32
  | .blur => .selector 5#32
  | .edge => .selector 6#32
  | .oilpaint => .selector 7#32
  | .filterUnsupported code => .selector code

/-- Where a bare 32-bit word of the opcode table is read. The table has two families of words that share
their numbers: command words and filter selectors. The three defined command words are read as commands and
every other word as a selector. DESIGN CHOICE, assumption 2. -/
def tableCode (word : Word) : Code :=
  if word = 1#32 ∨ word = 2#32 ∨ word = 3#32 then .port (writeOf .cmd word) else .selector word

/-- The instruction of a word of `nbits` bits as the opcode table numbers them; a word of more than 32
significant bits is none of WFE's. -/
def decodeTableWord (nbits w : Nat) : Option Instr :=
  if w % 2 ^ nbits < 2 ^ 32 then
    match decode (tableCode (BitVec.ofNat 32 (w % 2 ^ nbits))) with
    | .ok i => some i
    | .error _ => none
  else none

end Sys2Proof
end

