-- ==== Sys2Proof/Machine/Sequencer.lean ====
section
/-! DEFINITION. How the next action of the machine is found: what an event is, and how a word of the opcode table
is placed as the next instruction. -/

namespace Sys2Proof.Machine

/-- What the machine does next. -/
inductive Action where
  /-- Run an instruction. -/
  | run (i : Instr)
  /-- Refuse an access of the register port. -/
  | reject (why : Reject)
  /-- The host reads a byte of buffer memory. -/
  | load (address : BitVec 32)
  /-- The host writes a byte of buffer memory. -/
  | store (address : BitVec 32) (value : Byte)
  /-- The platform answers an access of the running job with an error. -/
  | memoryError (kind : AccessKind) (address : BitVec 32)
  /-- The reset input. -/
  | reset
deriving DecidableEq, Repr

/-- What decoding gives, as an action. -/
def actionOfCode (c : Code) : Action :=
  match decode c with
  | .ok i => .run i
  | .error why => .reject why

/-- The engine's turn: the filter operation that the latched selector names (R77, R83, R179). -/
def engineAction (s : State) : Action := actionOfCode (.selector s.job.filter)

/-- The next action. With nothing left from outside, the engine takes its turn, so that a running job reaches its
completion (R46, R235) and an idle machine rests (R217). Assumption 8. -/
def nextAction (s : State) : Action :=
  match s.inbox with
  | [] => engineAction s
  | .engine :: _ => engineAction s
  | .port t :: _ => actionOfCode (.port t)
  | .load address :: _ => .load address
  | .store address value :: _ => .store address value
  | .memoryError kind address :: _ => .memoryError kind address
  | .reset :: _ => .reset

/-- The event that the next action stands for is taken out of the inbox. -/
def takeEvent (s : State) : State := { s with inbox := s.inbox.tail }

/-- The state in which the next step runs the instruction of a code: a transaction is the host's next access,
a selector is the latched one of a running job whose engine takes its turn. Assumption 2. -/
def placeCode (c : Code) (s : State) : State :=
  match c with
  | .port t => { s with inbox := .port t :: s.inbox }
  | .selector code =>
    { s with
      inbox := .engine :: s.inbox
      status := { s.status with busy := true }
      job := { s.job with filter := code }
      stuck := false }

end Sys2Proof.Machine
end

