-- ==== Sys2Proof/Machine/Step.lean ====
section
/-! DEFINITION. One step of the machine: one access of the host, one turn of the engine, one error of the
memory port, or one reset (`00_scope.md` R18, `20_memory.md` R64, `60_exceptions.md` R209). -/

namespace Sys2Proof.Machine

/-- One step: the next event is taken, and its action performed. -/
def step (s : State) : Host.Outcome State Fault Refusal :=
  match nextAction s with
  | .run i => exec i (takeEvent s)
  | .reject why => .refused (.portProtocol why)
  | .load address => hostLoad address (takeEvent s)
  | .store address value => hostStore address value (takeEvent s)
  | .memoryError kind address => .next (portError kind address (takeEvent s))
  | .reset => .next (hardwareReset (takeEvent s))

/-- The state whose next step runs the instruction of a word of the opcode table. -/
def State.withFetchWord (s : State) (nbits w : Nat) : State :=
  placeCode (tableCode (BitVec.ofNat 32 (w % 2 ^ nbits))) s

end Sys2Proof.Machine
end

