-- ==== Sys2Proof/Safety.lean ====
section
/-! DEFINITION. The terms claims about WFE are stated in: when a job's completion step can be taken, what it may
touch, and the invariant that every step keeps. -/

namespace Sys2Proof.Machine

/-- The filter operations, which the engine runs on a latched job (`30_encoding.md` R76, R77). -/
def isFilterOp : Instr → Bool
  | .none => true
  | .invert => true
  | .grayscale => true
  | .sepia => true
  | .brightness => true
  | .blur => true
  | .edge => true
  | .oilpaint => true
  | .filterUnsupported _ => true
  | .wr _ _ => false
  | .rd _ => false
  | .commit => false
  | .process => false
  | .clear => false
  | .cmdReserved _ => false

/-- The filter operations that use the scratch RAM (`30_encoding.md` R76). -/
def isSpatialOp : Instr → Bool
  | .blur => true
  | .edge => true
  | .oilpaint => true
  | .none => false
  | .invert => false
  | .grayscale => false
  | .sepia => false
  | .brightness => false
  | .filterUnsupported _ => false
  | .wr _ _ => false
  | .rd _ => false
  | .commit => false
  | .process => false
  | .clear => false
  | .cmdReserved _ => false

/-- The `PERR` code a filter operation completes with (R178). -/
def completionCode : Instr → ProcessCode
  | .filterUnsupported _ => .unsupportedFilter
  | _ => .ok

/-- The registers the host may write a value to, other than `CMD` (`10_state.md` R21, access RW). -/
def isWritable : Reg → Bool
  | .filter => true
  | .width => true
  | .height => true
  | .inBase => true
  | .inLen => true
  | .outBase => true
  | .outLen => true
  | .staged _ => true
  | .id => false
  | .cmd => false
  | .status => false
  | .active _ => false
  | .kcoef _ => false
  | .reserved _ => false

/-- The completion step of the running job can be taken: a job runs (R178), its ranges lie in buffer memory (R53),
its image fits the scratch RAM where that is used (R203), and the platform answers, and has answered, every access without an error (R68). -/
structure JobReady (spatial : Bool) (s : State) : Prop where
  busy : s.status.busy = true
  not_stuck : s.stuck = false
  input_fits : s.job.inBase + jobBytes s.job ≤ Config.addressSpace
  output_fits : s.job.outBase + jobBytes s.job ≤ Config.addressSpace
  scratch_fits : spatial = true → jobBytes s.job ≤ s.scratchCap
  input_answers : rangeAnswers s.portErrors .read s.job.inBase (jobBytes s.job) = true
  output_answers : rangeAnswers s.portErrors .write s.job.outBase (jobBytes s.job) = true

/-- `STATUS` of a state after a job has completed with a code, every other bit as before (R178). -/
def completedStatus (code : ProcessCode) (s : State) : Status :=
  { s.status with busy := false, done := true, perr := code }

/-- A memory that agrees with the state's outside the output range of the latched job (R55, R59). -/
def OutsideOutput (s : State) (m : Memory) : Prop :=
  ∀ a, ¬ (s.job.outBase ≤ a ∧ a < s.job.outBase + jobBytes s.job) → readByte m a = readByte s.mem a

/-- A scratch RAM that agrees with the state's beyond the bytes the latched job uses (R45). -/
def BeyondScratch (s : State) (sc : Memory) : Prop :=
  ∀ a, jobBytes s.job ≤ a → readByte sc a = readByte s.scratch a

/-- The pixels of the output image of the latched job in a memory `m`, each given by a relation to its column and
row (R52, R53). -/
def EachOutputPixel (s : State) (m : Memory) (P : Nat → Nat → Pixel → Prop) : Prop :=
  ∀ x y, x < s.job.width → y < s.job.height → P x y (readImage m s.job.outBase s.job.width x y)

/-- The job of `u` takes as its input the output image that the job of `s` left in `t`, and is ready. -/
structure ReadsOutputOf (s t u : State) : Prop where
  mem : u.mem = t.mem
  input : u.job.inBase = s.job.outBase
  width : u.job.width = s.job.width
  height : u.job.height = s.job.height
  ready : JobReady false u

/-- What an accepted job satisfies for as long as it runs (R44, R177): the geometry and placement that the checks
of R207 leave, and the legal parameters it latched. -/
structure JobFits (s : State) (j : Job) : Prop where
  width_pos : 1 ≤ j.width
  height_pos : 1 ≤ j.height
  input_fits : j.inBase + jobBytes j ≤ Config.addressSpace
  output_fits : j.outBase + jobBytes j ≤ Config.addressSpace
  placement : j.inBase = j.outBase ∨ j.inBase + jobBytes j ≤ j.outBase ∨ j.outBase + jobBytes j ≤ j.inBase
  scratch_fits : usesScratch j.filter = true → jobBytes j ≤ s.scratchCap
  num_nonneg : 0 ≤ j.num
  den_pos : 1 ≤ j.den
  radius_legal : 1 ≤ j.blurRadius ∧ j.blurRadius ≤ 15
  kernel_generated : ∃ sigma, 1 ≤ sigma ∧ sigma < 2 ^ 31 ∧ j.kernel = kernelFile j.blurRadius sigma
  oil_radius_legal : 1 ≤ j.oilRadius ∧ j.oilRadius ≤ 15
  buckets_legal : 1 ≤ j.buckets ∧ j.buckets ≤ 256

/-- The invariant of the machine. -/
structure Inv (s : State) : Prop where
  /-- Buffer memory is in canonical form and lists addresses below 2^32 only (R50). -/
  mem_wf : MemoryWf s.mem
  mem_below : MemoryBelow Config.addressSpace s.mem
  /-- The scratch RAM is in canonical form and holds `SCRATCH_CAP` bytes, at least 4 (R45). -/
  scratch_wf : MemoryWf s.scratch
  scratch_below : MemoryBelow s.scratchCap s.scratch
  scratchCap_ge : 4 ≤ s.scratchCap
  /-- An active register always holds a legal value (R30). -/
  active_legal : paramsLegal s.active = true
  /-- `KCOEF` always agrees with the active radius and sigma (R38). -/
  kcoef_agrees : s.kcoef = kernelFile (sext32 s.active.blurRadius).toNat (sext32 s.active.blurSigma).toNat
  /-- A running job is one that the checks of `PROCESS` accepted (R25, R177). -/
  job_fits : s.status.busy = true → JobFits s s.job
  /-- Only a running job is stuck (R68). -/
  stuck_running : s.stuck = true → s.status.busy = true
  /-- While a job runs `DONE` and `PERR` are 0 (R230). -/
  running_clear : s.status.busy = true → s.status.done = false ∧ s.status.perr = .ok

/-- What a pointwise filter operation does, for a relation between an input pixel and its output pixel: whenever its
job is ready it completes, writes the output range only, and leaves every other part of the state (R59, R120, R178). That
the latch is among what stays once `BUSY` is 0 is the model's choice (R44: unspecified; DESIGN CHOICE, assumption 4). -/
def PointwiseResult (i : Instr) (code : ProcessCode) (P : State → Pixel → Pixel → Prop) : Prop :=
  ∀ s : State, MemoryWf s.mem → JobReady false s →
    ∃ m, exec i s = .next { s with mem := m, status := completedStatus code s } ∧ OutsideOutput s m ∧
      EachOutputPixel s m fun x y q => P s (inputImage s x y) q

/-- What a spatial filter operation does, for a relation between the input image, the scratch image it leaves and
an output pixel: whenever its job is ready it completes, writes the output range and its bytes of the scratch RAM
only, and leaves every other part of the state (R59, R60, R178). What the scratch RAM holds after completion, and that the
latch stays, is the model's choice (R44, and rows 7 and 8 of `93_implementation_defined.md`: any value; DESIGN CHOICE,
assumption 4). -/
def SpatialResult (i : Instr) (P : State → Image → Image → Nat → Nat → Pixel → Prop) : Prop :=
  ∀ s : State, MemoryWf s.mem → MemoryWf s.scratch → JobReady true s →
    ∃ m sc, exec i s = .next { s with mem := m, scratch := sc, status := completedStatus .ok s } ∧
      OutsideOutput s m ∧ BeyondScratch s sc ∧
      EachOutputPixel s m fun x y q => P s (inputImage s) (readImage sc 0 s.job.width) x y q

end Sys2Proof.Machine
end

