-- ==== Sys2Proof/Certificates/Slice0/Obligations.lean ====
section
/-! DEFINITION. The statements about WFE. Each docstring names the rules of spec/ it formalises. A premise
`MemoryWf` says that a byte store is in its canonical form, which `Obligations.StepKeepsInvariant` says every step
keeps. R44 and rows 7 and 8 of `93_implementation_defined.md` leave the content of the job latch and of the scratch RAM
open while no job runs: wherever a statement says that they stay, or what they hold, at a time when no job runs, that
clause is the model's choice (DESIGN CHOICE, assumption 4) and no rule's. -/

open Sys2Proof Sys2Proof.Machine

/-! ## Encodings -/

/-- Decoding what the encoder writes gives the instruction back, for every well-formed instruction and every value
of its operands (R70 to R77, R83). -/
def Obligations.DecodeOfEncode : Prop :=
  ∀ i : Instr, i.wellFormed = true → decode (encode i) = .ok i

/-- Every transaction and every selector that decodes to an instruction is the one encoding of it, and the
instruction is well formed: no two codes share an instruction and no code is read as its neighbour (R83, R84). -/
def Obligations.EncodeOfDecode : Prop :=
  ∀ (c : Code) (i : Instr), decode c = .ok i → i.wellFormed = true ∧ encode i = c

/-- A few codes of each family, read off the tables of R21, R74, R76 and R77. -/
def Obligations.SampleCodesDecode : Prop :=
  decode (.port { kind := .write 0x2#32, offset := 0x00C#12, width := 32 }) = .ok (.wr .filter 0x2#32) ∧
  decode (.port { kind := .read, offset := 0x13C#12, width := 32 }) = .ok (.rd (.kcoef 15)) ∧
  decode (.port { kind := .read, offset := 0x094#12, width := 32 }) = .ok (.rd (.active .oilBuckets)) ∧
  decode (.port { kind := .write 0x1#32, offset := 0x004#12, width := 32 }) = .ok .commit ∧
  decode (.port { kind := .write 0x2#32, offset := 0x004#12, width := 32 }) = .ok .process ∧
  decode (.port { kind := .write 0x3#32, offset := 0x004#12, width := 32 }) = .ok .clear ∧
  decode (.port { kind := .write 0x12#32, offset := 0x004#12, width := 32 }) = .ok (.cmdReserved 0x12#32) ∧
  decode (.selector 0x7#32) = .ok .oilpaint ∧
  decode (.selector 0xFFFFFFFF#32) = .ok (.filterUnsupported 0xFFFFFFFF#32)

/-- R71 with the table of R21: the register that each aligned 32-bit access names, and the reserved offsets (R42). A
write at the offset of `CMD` is a command (`Obligations.ReservedCommand`, `Obligations.SampleCodesDecode`). -/
def Obligations.OffsetsNameRegisters : Prop :=
  (∀ p ∈ [(0x000#12, Reg.id), (0x004#12, Reg.cmd), (0x008#12, Reg.status), (0x00C#12, Reg.filter),
      (0x010#12, Reg.width), (0x014#12, Reg.height), (0x018#12, Reg.inBase), (0x01C#12, Reg.inLen),
      (0x020#12, Reg.outBase), (0x024#12, Reg.outLen), (0x040#12, Reg.staged .brightNum),
      (0x044#12, Reg.staged .brightDen), (0x048#12, Reg.staged .blurRadius), (0x04C#12, Reg.staged .blurSigma),
      (0x050#12, Reg.staged .oilRadius), (0x054#12, Reg.staged .oilBuckets), (0x080#12, Reg.active .brightNum),
      (0x084#12, Reg.active .brightDen), (0x088#12, Reg.active .blurRadius), (0x08C#12, Reg.active .blurSigma),
      (0x090#12, Reg.active .oilRadius), (0x094#12, Reg.active .oilBuckets)],
    decode (.port { kind := .read, offset := p.1, width := 32 }) = .ok (.rd p.2) ∧
    (p.2 ≠ .cmd → ∀ d, decode (.port { kind := .write d, offset := p.1, width := 32 }) = .ok (.wr p.2 d))) ∧
  (∀ i : Fin 16, decode (.port { kind := .read, offset := BitVec.ofNat 12 (0x100 + 4 * i.val), width := 32 })
    = .ok (.rd (.kcoef i)) ∧
    ∀ d, decode (.port { kind := .write d, offset := BitVec.ofNat 12 (0x100 + 4 * i.val), width := 32 })
      = .ok (.wr (.kcoef i) d)) ∧
  (∀ n : Nat, n < 1024 →
    ((10 ≤ n ∧ n < 16) ∨ (22 ≤ n ∧ n < 32) ∨ (38 ≤ n ∧ n < 64) ∨ 80 ≤ n) →
    decode (.port { kind := .read, offset := BitVec.ofNat 12 (4 * n), width := 32 })
      = .ok (.rd (.reserved (BitVec.ofNat 10 n))) ∧
    ∀ d, decode (.port { kind := .write d, offset := BitVec.ofNat 12 (4 * n), width := 32 })
      = .ok (.wr (.reserved (BitVec.ofNat 10 n)) d))

/-- R76: the eight selector codes, all 32 bits compared, and which of them use the scratch RAM; R77: every other
value is unsupported. -/
def Obligations.SelectorCodes : Prop :=
  (∀ code : Word, ∀ i, decode (.selector code) = .ok i →
    (code = 0#32 ↔ i = .none) ∧ (code = 1#32 ↔ i = .invert) ∧ (code = 2#32 ↔ i = .grayscale) ∧
    (code = 3#32 ↔ i = .sepia) ∧ (code = 4#32 ↔ i = .brightness) ∧ (code = 5#32 ↔ i = .blur) ∧
    (code = 6#32 ↔ i = .edge) ∧ (code = 7#32 ↔ i = .oilpaint) ∧
    (8 ≤ code.toNat ↔ i = .filterUnsupported code) ∧
    (usesScratch code = true ↔ i = .blur ∨ i = .edge ∨ i = .oilpaint)) ∧
  ∀ code : Word, ∃ i, decode (.selector code) = .ok i

/-- R57: a register access that is not 32 bits wide or whose offset is not a multiple of 4 is refused, and every
other one is an instruction. -/
def Obligations.UndefinedAccessesRefused : Prop :=
  ∀ (s : State) (t : Transaction) (rest : List Event), s.inbox = .port t :: rest →
    ((t.width ≠ 32 ∨ t.offset.toNat % 4 ≠ 0) ↔ ∃ why, step s = .refused (.portProtocol why)) ∧
    (¬ (t.width ≠ 32 ∨ t.offset.toNat % 4 ≠ 0) → ∃ i, decode (.port t) = .ok i ∧ i.wellFormed = true)

/-! ## The step -/

/-- When the host's next access decodes to an instruction, the step takes that access out of the inbox and is that
instruction's meaning at the state that leaves (R64, R83). -/
def Obligations.StepRunsPortInstruction : Prop :=
  ∀ (s : State) (t : Transaction) (rest : List Event) (i : Instr), s.inbox = .port t :: rest →
    decode (.port t) = .ok i → step s = exec i { s with inbox := rest }

/-- R179: when the engine takes its turn, the step is the filter operation that the latched selector names; every
code from 8 on runs the unsupported-filter copy. The engine's turn comes where the inbox says, and when the inbox is
empty (the model's convention, assumption 8). -/
def Obligations.EngineTurnDispatches : Prop :=
  ∀ s : State, (s.inbox = [] ∨ ∃ rest, s.inbox = .engine :: rest) →
    (s.job.filter = 0#32 → step s = exec .none { s with inbox := s.inbox.tail }) ∧
    (s.job.filter = 1#32 → step s = exec .invert { s with inbox := s.inbox.tail }) ∧
    (s.job.filter = 2#32 → step s = exec .grayscale { s with inbox := s.inbox.tail }) ∧
    (s.job.filter = 3#32 → step s = exec .sepia { s with inbox := s.inbox.tail }) ∧
    (s.job.filter = 4#32 → step s = exec .brightness { s with inbox := s.inbox.tail }) ∧
    (s.job.filter = 5#32 → step s = exec .blur { s with inbox := s.inbox.tail }) ∧
    (s.job.filter = 6#32 → step s = exec .edge { s with inbox := s.inbox.tail }) ∧
    (s.job.filter = 7#32 → step s = exec .oilpaint { s with inbox := s.inbox.tail }) ∧
    (8 ≤ s.job.filter.toNat →
      step s = exec (.filterUnsupported s.job.filter) { s with inbox := s.inbox.tail })

/-- R217 says that every register keeps its value while idle; here an idle machine with nothing coming from outside keeps
its whole state. Two parts of this are the model's choice and no rule's: that the latch and the scratch RAM stay, which the
spec leaves as any value while idle (DESIGN CHOICE, assumption 4), and that a step with an empty inbox is a turn of the
engine, which passes when no job runs (DESIGN CHOICE, assumption 8). -/
def Obligations.IdleMachineRests : Prop :=
  ∀ s : State, s.status.busy = false → s.inbox = [] → step s = .next s

/-! ## Register accesses -/

/-- R170 and R21, R42: a write to an RW register stores the word as written and changes no other register; a write
to an RO register or to a reserved offset changes nothing; a write to `CMD` executes the command that the word names
(R175). Nothing outside the registers changes in the first two cases. -/
def Obligations.RegisterWrite : Prop :=
  ∀ (s : State) (reg : Reg) (data : Word),
    (isWritable reg = true → ∃ t, exec (.wr reg data) s = .next t ∧ readReg t reg = data ∧
      (∀ other, other ≠ reg → readReg t other = readReg s other) ∧
      t.status = s.status ∧ t.job = s.job ∧ t.stuck = s.stuck ∧ t.kcoef = s.kcoef ∧ t.scratch = s.scratch ∧
      t.mem = s.mem ∧
      t.scratchCap = s.scratchCap ∧ t.portErrors = s.portErrors ∧ t.portData = s.portData ∧
      t.loadData = s.loadData ∧ t.inbox = s.inbox ∧ t.freeCount = s.freeCount) ∧
    (isWritable reg = false → reg ≠ .cmd → exec (.wr reg data) s = .next s) ∧
    (reg = .cmd → exec (.wr reg data) s = exec (decodeCommand data) s)

/-- R171 with R22, R23, R42: what a read returns for every register, and that nothing else changes. -/
def Obligations.RegisterRead : Prop :=
  ∀ (s : State) (reg : Reg), ∃ v : Word, exec (.rd reg) s = .next { s with portData := v } ∧
    (reg = .id → v = 0x57460007#32) ∧ (reg = .cmd → v = 0#32) ∧ (∀ n, reg = .reserved n → v = 0#32) ∧
    (reg = .filter → v = s.filter) ∧ (reg = .width → v = s.width) ∧ (reg = .height → v = s.height) ∧
    (reg = .inBase → v = s.inBase) ∧ (reg = .inLen → v = s.inLen) ∧ (reg = .outBase → v = s.outBase) ∧
    (reg = .outLen → v = s.outLen) ∧
    (reg = .staged .brightNum → v = s.staged.brightNum) ∧ (reg = .staged .brightDen → v = s.staged.brightDen) ∧
    (reg = .staged .blurRadius → v = s.staged.blurRadius) ∧ (reg = .staged .blurSigma → v = s.staged.blurSigma) ∧
    (reg = .staged .oilRadius → v = s.staged.oilRadius) ∧ (reg = .staged .oilBuckets → v = s.staged.oilBuckets) ∧
    (reg = .active .brightNum → v = s.active.brightNum) ∧ (reg = .active .brightDen → v = s.active.brightDen) ∧
    (reg = .active .blurRadius → v = s.active.blurRadius) ∧ (reg = .active .blurSigma → v = s.active.blurSigma) ∧
    (reg = .active .oilRadius → v = s.active.oilRadius) ∧ (reg = .active .oilBuckets → v = s.active.oilBuckets) ∧
    (∀ i, reg = .kcoef i → v.toNat = (s.kcoef[i]).toNat ∧ v.extractLsb' 17 15 = 0#15) ∧
    (reg = .status → v = statusWord s.status)

/-- R24 and R200: the bits of `STATUS`, the numbers of its codes, its value at reset, and that a write to it is
ignored. -/
def Obligations.StatusWordLayout : Prop :=
  (∀ st : Status,
    (statusWord st).getLsbD 0 = st.busy ∧ (statusWord st).getLsbD 1 = st.done ∧
    (statusWord st).getLsbD 2 = st.ovr ∧ (statusWord st).getLsbD 3 = st.badcmd ∧
    (statusWord st).extractLsb' 4 4 = (match st.perr with
      | .ok => 0#4 | .invalidGeometry => 1#4 | .bufferOverlap => 2#4 | .unsupportedFilter => 3#4 | .capacity => 4#4) ∧
    (statusWord st).extractLsb' 8 4 = (match st.cerr with | .ok => 0#4 | .invalidParameter => 1#4) ∧
    (statusWord st).extractLsb' 12 20 = 0#20) ∧
  statusWord State.reset.status = 0#32 ∧
  ∀ (s : State) (d : Word), exec (.wr .status d) s = .next s

/-! ## Commands -/

/-- R176, R205, R208, R115: when all six staged values are legal, `COMMIT` makes them active, loads the kernel of the
new radius and sigma, with 0 beyond the radius, and writes `CERR` := 0; when any of them is illegal, it writes `CERR` := 1.
Nothing else changes in either case. -/
def Obligations.CommitOutcome : Prop :=
  ∀ s : State,
    (0 ≤ s.staged.brightNum.toInt ∧ 1 ≤ s.staged.brightDen.toNat ∧
      1 ≤ s.staged.blurRadius.toInt ∧ s.staged.blurRadius.toInt ≤ 15 ∧ 1 ≤ s.staged.blurSigma.toInt ∧
      1 ≤ s.staged.oilRadius.toInt ∧ s.staged.oilRadius.toInt ≤ 15 ∧
      1 ≤ s.staged.oilBuckets.toInt ∧ s.staged.oilBuckets.toInt ≤ 256 →
      ∃ k : KernelFile,
        exec .commit s = .next { s with active := s.staged, kcoef := k, status := { s.status with cerr := .ok } } ∧
        ∀ i : Fin 16, (k[i]).toNat = if (i.val : Int) ≤ s.staged.blurRadius.toInt
          then (kq s.staged.blurRadius.toNat s.staged.blurSigma.toNat).getD i.val 0 else 0) ∧
    (s.staged.brightNum.toInt < 0 ∨ s.staged.brightDen.toNat = 0 ∨
      s.staged.blurRadius.toInt < 1 ∨ 15 < s.staged.blurRadius.toInt ∨ s.staged.blurSigma.toInt < 1 ∨
      s.staged.oilRadius.toInt < 1 ∨ 15 < s.staged.oilRadius.toInt ∨
      s.staged.oilBuckets.toInt < 1 ∨ 256 < s.staged.oilBuckets.toInt →
      exec .commit s = .next { s with status := { s.status with cerr := .invalidParameter } })

/-- R177, R207: the one outcome of `PROCESS`. The conditions are tried in the order of R207; `n` is W·H·4 in ℤ. In
every case only the fields named change; the latch takes the values of R44. -/
def Obligations.ProcessOutcome : Prop :=
  ∀ (s : State) (n : Int), n = s.width.toInt * s.height.toInt * 4 →
    exec .process s = .next (
      if s.status.busy = true then { s with status := { s.status with ovr := true } }
      else if s.width.toInt ≤ 0 ∨ s.height.toInt ≤ 0 then
        { s with status := { s.status with perr := .invalidGeometry, done := true } }
      else if (s.inLen.toNat : Int) ≠ n ∨ (s.outLen.toNat : Int) ≠ n then
        { s with status := { s.status with perr := .invalidGeometry, done := true } }
      else if 2 ^ 32 < (s.inBase.toNat : Int) + n ∨ 2 ^ 32 < (s.outBase.toNat : Int) + n then
        { s with status := { s.status with perr := .invalidGeometry, done := true } }
      else if s.inBase ≠ s.outBase ∧ |(s.inBase.toNat : Int) - s.outBase.toNat| < n then
        { s with status := { s.status with perr := .bufferOverlap, done := true } }
      else if (s.filter = 5#32 ∨ s.filter = 6#32 ∨ s.filter = 7#32) ∧ (s.scratchCap : Int) < n then
        { s with status := { s.status with perr := .capacity, done := true } }
      else
        { s with
          job :=
            { filter := s.filter, width := s.width.toNat, height := s.height.toNat
              inBase := s.inBase.toNat, outBase := s.outBase.toNat
              num := s.active.brightNum.toInt, den := s.active.brightDen.toNat
              blurRadius := s.active.blurRadius.toInt.toNat, kernel := s.kcoef
              oilRadius := s.active.oilRadius.toInt.toNat, buckets := s.active.oilBuckets.toInt.toNat }
          status := { s.status with busy := true, done := false, perr := .ok } })

/-- R202: among idle states whose geometry R201 accepts, `PROCESS` reports BUFFER_OVERLAP exactly when some address
lies in both ranges and the bases differ. -/
def Obligations.OverlapReportedExactly : Prop :=
  ∀ (s t : State) (n : Int), n = s.width.toInt * s.height.toInt * 4 → s.status.busy = false →
    1 ≤ s.width.toInt → 1 ≤ s.height.toInt → (s.inLen.toNat : Int) = n → (s.outLen.toNat : Int) = n →
    (s.inBase.toNat : Int) + n ≤ 2 ^ 32 → (s.outBase.toNat : Int) + n ≤ 2 ^ 32 →
    exec .process s = .next t →
    (t.status.perr = .bufferOverlap ↔
      s.inBase ≠ s.outBase ∧ ∃ a : Int, (s.inBase.toNat : Int) ≤ a ∧ a < s.inBase.toNat + n ∧
        (s.outBase.toNat : Int) ≤ a ∧ a < s.outBase.toNat + n)

/-- R180: `CLEAR` sets every field of `STATUS` but `BUSY` to 0 and changes nothing else. -/
def Obligations.ClearCommand : Prop :=
  ∀ s : State, exec .clear s = .next { s with
    status := { busy := s.status.busy, done := false, ovr := false, badcmd := false, perr := .ok, cerr := .ok } }

/-- R181: a reserved command word sets `BADCMD` and changes nothing else; R75: the reserved words are all but 1, 2
and 3. -/
def Obligations.ReservedCommand : Prop :=
  (∀ (w : Word) (s : State),
    exec (.cmdReserved w) s = .next { s with status := { s.status with badcmd := true } }) ∧
  ∀ w : Word, decode (.port { kind := .write w, offset := 0x004#12, width := 32 }) = .ok (.cmdReserved w) ↔
    w ≠ 1#32 ∧ w ≠ 2#32 ∧ w ≠ 3#32

/-! ## Pointwise filters -/

/-- R121: `NONE` copies every pixel of the input to the output. That the latch stays once `BUSY` is 0 is the model's choice,
not what R59, R120 or R178 says (DESIGN CHOICE, assumption 4). -/
def Obligations.NoneCopies : Prop :=
  PointwiseResult .none .ok fun _ p q => q = p

/-- R122: `INVERT` gives 255 - c for each colour channel and keeps alpha. That the latch stays once `BUSY` is 0 is the
model's choice (DESIGN CHOICE, assumption 4). -/
def Obligations.InvertResult : Prop :=
  PointwiseResult .invert .ok fun _ p q =>
    q.r.toNat = 255 - p.r.toNat ∧ q.g.toNat = 255 - p.g.toNat ∧ q.b.toNat = 255 - p.b.toNat ∧ q.a = p.a

/-- R123: `GRAYSCALE`, in the exact integer form of the rule. That the latch stays once `BUSY` is 0 is the model's choice
(DESIGN CHOICE, assumption 4). -/
def Obligations.GrayscaleResult : Prop :=
  PointwiseResult .grayscale .ok fun _ p q =>
    q.r.toNat = min 255 ((2 * (299 * p.r.toNat + 587 * p.g.toNat + 114 * p.b.toNat) + 1000) / 2000) ∧
    q.g = q.r ∧ q.b = q.r ∧ q.a = p.a

/-- R124: `SEPIA`, in the exact integer form of the rule. That the latch stays once `BUSY` is 0 is the model's choice
(DESIGN CHOICE, assumption 4). -/
def Obligations.SepiaResult : Prop :=
  PointwiseResult .sepia .ok fun _ p q =>
    q.r.toNat = min 255 ((2 * (393 * p.r.toNat + 769 * p.g.toNat + 189 * p.b.toNat) + 1000) / 2000) ∧
    q.g.toNat = min 255 ((2 * (349 * p.r.toNat + 686 * p.g.toNat + 168 * p.b.toNat) + 1000) / 2000) ∧
    q.b.toNat = min 255 ((2 * (272 * p.r.toNat + 534 * p.g.toNat + 131 * p.b.toNat) + 1000) / 2000) ∧ q.a = p.a

/-- R125: `BRIGHTNESS` by the latched factor, whose numerator is not negative and whose denominator is not 0. That
the latch stays once `BUSY` is 0 is the model's choice (DESIGN CHOICE, assumption 4). -/
def Obligations.BrightnessResult : Prop :=
  PointwiseResult .brightness .ok fun s p q => 0 ≤ s.job.num → 1 ≤ s.job.den →
    q.r.toNat = min 255 ((2 * p.r.toNat * s.job.num.toNat + s.job.den) / (2 * s.job.den)) ∧
    q.g.toNat = min 255 ((2 * p.g.toNat * s.job.num.toNat + s.job.den) / (2 * s.job.den)) ∧
    q.b.toNat = min 255 ((2 * p.b.toNat * s.job.num.toNat + s.job.den) / (2 * s.job.den)) ∧ q.a = p.a

/-- R204: an unsupported selector runs the identity copy over the whole output range and completes with code 3.
That the latch stays once `BUSY` is 0 is the model's choice (DESIGN CHOICE, assumption 4). -/
def Obligations.UnsupportedFilterCopies : Prop :=
  ∀ code : Word, PointwiseResult (.filterUnsupported code) .unsupportedFilter fun _ p q => q = p

/-- R126: for every image and every active parameter set, `INVERT` of the output of `INVERT` gives the first input
back and `GRAYSCALE` of the output of `GRAYSCALE` gives that output again, wherever the second job writes; every
pointwise filter leaves every alpha byte, and `NONE` copies every byte. -/
def Obligations.PointwiseFamilyProperties : Prop :=
  ∀ s t : State, MemoryWf s.mem → JobReady false s →
    (∀ u v, exec .invert s = .next t → ReadsOutputOf s t u → exec .invert u = .next v →
      ∀ x y, x < s.job.width → y < s.job.height →
        readImage v.mem u.job.outBase u.job.width x y = inputImage s x y) ∧
    (∀ u v, exec .grayscale s = .next t → ReadsOutputOf s t u → exec .grayscale u = .next v →
      ∀ x y, x < s.job.width → y < s.job.height →
        readImage v.mem u.job.outBase u.job.width x y = readImage t.mem s.job.outBase s.job.width x y) ∧
    (∀ i ∈ [Instr.none, Instr.invert, Instr.grayscale, Instr.sepia, Instr.brightness], exec i s = .next t →
      ∀ x y, x < s.job.width → y < s.job.height →
        (readImage t.mem s.job.outBase s.job.width x y).a = (inputImage s x y).a) ∧
    (exec .none s = .next t →
      ∀ k, k < jobBytes s.job → readByte t.mem (s.job.outBase + k) = readByte s.mem (s.job.inBase + k))

/-! ## Spatial filters -/

/-- R140, R141, R142: `BLUR`. The intermediate image is the horizontal pass of the input, the output is the vertical pass
of the intermediate image, each colour channel of a pass is `SatK` of the exact sum over the offsets -r … r of the clamped
sample times the weight of the offset's magnitude, and alpha is copied in both passes. That the scratch RAM still holds the
intermediate image after completion and keeps its other bytes, and that the latch stays, is the model's choice and no rule's
(DESIGN CHOICE, assumption 4). -/
def Obligations.BlurResult : Prop :=
  SpatialResult .blur fun s img tmp x y q =>
    (tmp x y).r.toNat = min 255 ((∑ i ∈ Finset.Icc (-(s.job.blurRadius : Int)) s.job.blurRadius,
        (img (max 0 (min (x + i) (s.job.width - 1))).toNat y).r.toNat * coefficient s.job.kernel i.natAbs + 32768)
          / 65536) ∧
    (tmp x y).g.toNat = min 255 ((∑ i ∈ Finset.Icc (-(s.job.blurRadius : Int)) s.job.blurRadius,
        (img (max 0 (min (x + i) (s.job.width - 1))).toNat y).g.toNat * coefficient s.job.kernel i.natAbs + 32768)
          / 65536) ∧
    (tmp x y).b.toNat = min 255 ((∑ i ∈ Finset.Icc (-(s.job.blurRadius : Int)) s.job.blurRadius,
        (img (max 0 (min (x + i) (s.job.width - 1))).toNat y).b.toNat * coefficient s.job.kernel i.natAbs + 32768)
          / 65536) ∧
    (tmp x y).a = (img x y).a ∧
    q.r.toNat = min 255 ((∑ i ∈ Finset.Icc (-(s.job.blurRadius : Int)) s.job.blurRadius,
        (tmp x (max 0 (min (y + i) (s.job.height - 1))).toNat).r.toNat * coefficient s.job.kernel i.natAbs + 32768)
          / 65536) ∧
    q.g.toNat = min 255 ((∑ i ∈ Finset.Icc (-(s.job.blurRadius : Int)) s.job.blurRadius,
        (tmp x (max 0 (min (y + i) (s.job.height - 1))).toNat).g.toNat * coefficient s.job.kernel i.natAbs + 32768)
          / 65536) ∧
    q.b.toNat = min 255 ((∑ i ∈ Finset.Icc (-(s.job.blurRadius : Int)) s.job.blurRadius,
        (tmp x (max 0 (min (y + i) (s.job.height - 1))).toNat).b.toNat * coefficient s.job.kernel i.natAbs + 32768)
          / 65536) ∧
    q.a = (tmp x y).a

/-- R147: with a normalized kernel (R113, P2) each channel of a blurred image lies between the least and the greatest
value of that channel in the input image. -/
def Obligations.BlurStaysInRange : Prop :=
  ∀ s t : State, MemoryWf s.mem → MemoryWf s.scratch → JobReady true s → exec .blur s = .next t →
    coefficient s.job.kernel 0 + 2 * (∑ i ∈ Finset.Icc 1 s.job.blurRadius, coefficient s.job.kernel i) = 65536 →
    ∀ (c : Channel) (lo hi : Nat),
      (∀ x y, x < s.job.width → y < s.job.height →
        lo ≤ (channelOf (inputImage s x y) c).toNat ∧ (channelOf (inputImage s x y) c).toNat ≤ hi) →
      ∀ x y, x < s.job.width → y < s.job.height →
        lo ≤ (channelOf (readImage t.mem s.job.outBase s.job.width x y) c).toNat ∧
        (channelOf (readImage t.mem s.job.outBase s.job.width x y) c).toNat ≤ hi

/-- R145: with a normalized kernel (R113, P2) `BLUR` returns a uniform image and a 1 by 1 image unchanged, and with the
identity kernel it returns every image unchanged. -/
def Obligations.BlurLeavesImage : Prop :=
  ∀ s t : State, MemoryWf s.mem → MemoryWf s.scratch → JobReady true s → exec .blur s = .next t →
    coefficient s.job.kernel 0 + 2 * (∑ i ∈ Finset.Icc 1 s.job.blurRadius, coefficient s.job.kernel i) = 65536 →
    ((∃ p : Pixel, ∀ x y, x < s.job.width → y < s.job.height → inputImage s x y = p) ∨
      (s.job.width = 1 ∧ s.job.height = 1) ∨ coefficient s.job.kernel 0 = 65536) →
    ∀ x y, x < s.job.width → y < s.job.height →
      readImage t.mem s.job.outBase s.job.width x y = inputImage s x y

/-- R150 to R154: `EDGE`. At an interior pixel each colour channel is the magnitude of the gradients of R151, rounded
half up and saturated (R152), and alpha is the input's; a border pixel is the input's. That the scratch RAM still
holds the result after completion and keeps its other bytes, and that the latch stays, is the model's choice and no rule's
(DESIGN CHOICE, assumption 4). -/
def Obligations.EdgeResult : Prop :=
  SpatialResult .edge fun s img tmp x y q =>
    q = tmp x y ∧
    (1 ≤ x ∧ x + 1 < s.job.width ∧ 1 ≤ y ∧ y + 1 < s.job.height → q.a = (img x y).a ∧
      ∀ c : Channel, c ≠ .a → ∀ v : Nat → Nat → Int, (∀ i j, v i j = ((channelOf (img i j) c).toNat : Int)) →
        ∀ gx gy : Int,
          gx = (v (x + 1) (y - 1) + 2 * v (x + 1) y + v (x + 1) (y + 1))
            - (v (x - 1) (y - 1) + 2 * v (x - 1) y + v (x - 1) (y + 1)) →
          gy = (v (x - 1) (y + 1) + 2 * v x (y + 1) + v (x + 1) (y + 1))
            - (v (x - 1) (y - 1) + 2 * v x (y - 1) + v (x + 1) (y - 1)) →
          ((channelOf q c).toNat : Int) = min 255 ⌊Real.sqrt ((gx ^ 2 + gy ^ 2 : Int) : ℝ) + 1 / 2⌋) ∧
    (¬ (1 ≤ x ∧ x + 1 < s.job.width ∧ 1 ≤ y ∧ y + 1 < s.job.height) → q = img x y)

/-- R155, its first two cases: `EDGE` copies an image that has no interior pixel, and on a uniform image every
interior pixel gets magnitude 0 in its colour channels. -/
def Obligations.EdgeOfFlatImages : Prop :=
  ∀ s t : State, MemoryWf s.mem → MemoryWf s.scratch → JobReady true s → exec .edge s = .next t →
    (s.job.width ≤ 2 ∨ s.job.height ≤ 2 → ∀ x y, x < s.job.width → y < s.job.height →
      readImage t.mem s.job.outBase s.job.width x y = inputImage s x y) ∧
    ∀ p : Pixel, (∀ x y, x < s.job.width → y < s.job.height → inputImage s x y = p) →
      ∀ x y, 1 ≤ x → x + 1 < s.job.width → 1 ≤ y → y + 1 < s.job.height →
        readImage t.mem s.job.outBase s.job.width x y = { r := 0#8, g := 0#8, b := 0#8, a := p.a }

/-- R160 to R165: `OILPAINT`. `samples` are the clamped samples at the offsets of the square, `count b` how many of
them have bucket b (R161); the winner is the smallest bucket with the largest count (R163); each colour channel is the
mean of that bucket's samples, rounded half up (R164), and alpha is the pixel's own (R165). That the scratch
RAM still holds the result after completion and keeps its other bytes, and that the latch stays, is the model's choice and no
rule's (DESIGN CHOICE, assumption 4). -/
def Obligations.OilPaintResult : Prop :=
  SpatialResult .oilpaint fun s img tmp x y q =>
    q = tmp x y ∧ q.a = (img x y).a ∧
    (1 ≤ s.job.buckets → ∀ (sampleAt : Int × Int → Pixel) (bin : Pixel → Nat) (square : Finset (Int × Int)),
      (∀ d, sampleAt d = img (max 0 (min (x + d.1) (s.job.width - 1))).toNat
        (max 0 (min (y + d.2) (s.job.height - 1))).toNat) →
      (∀ p : Pixel, bin p = (p.r.toNat + p.g.toNat + p.b.toNat) / 3 * s.job.buckets / 256) →
      square = Finset.Icc (-(s.job.oilRadius : Int)) s.job.oilRadius
        ×ˢ Finset.Icc (-(s.job.oilRadius : Int)) s.job.oilRadius →
      ∃ best, best < s.job.buckets ∧
        (∀ b, b < s.job.buckets → {d ∈ square | bin (sampleAt d) = b}.card
          ≤ {d ∈ square | bin (sampleAt d) = best}.card) ∧
        (∀ b, b < best → {d ∈ square | bin (sampleAt d) = b}.card
          < {d ∈ square | bin (sampleAt d) = best}.card) ∧
        1 ≤ {d ∈ square | bin (sampleAt d) = best}.card ∧
        ∀ c : Channel, c ≠ .a → (channelOf q c).toNat =
          (2 * (∑ d ∈ square with bin (sampleAt d) = best, (channelOf (sampleAt d) c).toNat)
            + {d ∈ square | bin (sampleAt d) = best}.card) / (2 * {d ∈ square | bin (sampleAt d) = best}.card))

/-- R166, its first case: `OILPAINT` returns a uniform image unchanged, for every legal radius and bucket count. -/
def Obligations.OilPaintOfUniformImage : Prop :=
  ∀ s t : State, MemoryWf s.mem → MemoryWf s.scratch → JobReady true s → exec .oilpaint s = .next t →
    1 ≤ s.job.oilRadius → s.job.oilRadius ≤ 15 → 1 ≤ s.job.buckets → s.job.buckets ≤ 256 →
    ∀ p : Pixel, (∀ x y, x < s.job.width → y < s.job.height → inputImage s x y = p) →
      ∀ x y, x < s.job.width → y < s.job.height → readImage t.mem s.job.outBase s.job.width x y = p

/-! ## Filter operations together -/

/-- R47, R59, R66: the output of a job depends only on the latch and on the bytes of the input range: not on the
scratch RAM, the registers, the rest of memory, or what the host does next. -/
def Obligations.JobDependsOnInputOnly : Prop :=
  ∀ (i : Instr) (s₁ s₂ t₁ t₂ : State), isFilterOp i = true →
    MemoryWf s₁.mem → MemoryWf s₂.mem → MemoryWf s₁.scratch → MemoryWf s₂.scratch →
    JobReady (isSpatialOp i) s₁ → JobReady (isSpatialOp i) s₂ → s₁.job = s₂.job →
    (∀ a, inInput s₁.job a = true → readByte s₁.mem a = readByte s₂.mem a) →
    exec i s₁ = .next t₁ → exec i s₂ = .next t₂ →
    ∀ a, inOutput s₁.job a = true → readByte t₁.mem a = readByte t₂.mem a

/-- The source's property "Alpha channel is unchanged by every filter for all inputs" (95_test_vectors.md, Q3). -/
def Obligations.EveryFilterKeepsAlpha : Prop :=
  ∀ (i : Instr) (s t : State), isFilterOp i = true → MemoryWf s.mem → MemoryWf s.scratch →
    JobReady (isSpatialOp i) s → exec i s = .next t →
    ∀ x y, x < s.job.width → y < s.job.height →
      (readImage t.mem s.job.outBase s.job.width x y).a = (inputImage s x y).a

/-- R68, as the model takes it (assumption 6): a job that reads or writes an address at which the platform always answers
that kind of access with an error makes no completion step. `BUSY` stays 1 and only its output range, whose bytes are any
value, the mark of a stuck job and the model's counter change. -/
def Obligations.PortErrorStallsJob : Prop :=
  ∀ (i : Instr) (s : State), isFilterOp i = true → MemoryWf s.mem → s.status.busy = true →
    s.job.inBase + jobBytes s.job ≤ Config.addressSpace → s.job.outBase + jobBytes s.job ≤ Config.addressSpace →
    (isSpatialOp i = true → jobBytes s.job ≤ s.scratchCap) →
    (∃ kind a, jobAccesses s.job kind a = true ∧ addressFails s.portErrors kind a = true) →
    ∃ m n, exec i s = .next { s with mem := m, stuck := true, freeCount := n } ∧ OutsideOutput s m

/-- R68, as the model takes it (assumption 6): an error at one access of a running job, a read of its input range or a
write of its output range, leaves the job stuck in the same way; an error that no running job meets changes nothing. -/
def Obligations.MemoryErrorStallsJob : Prop :=
  ∀ (s : State) (kind : AccessKind) (a : BitVec 32) (rest : List Event), MemoryWf s.mem →
    s.inbox = .memoryError kind a :: rest →
    (s.status.busy = true ∧
        (kind = .read ∧ s.job.inBase ≤ a.toNat ∧ a.toNat < s.job.inBase + jobBytes s.job ∨
          kind = .write ∧ s.job.outBase ≤ a.toNat ∧ a.toNat < s.job.outBase + jobBytes s.job) →
      ∃ m n, step s = .next { s with inbox := rest, mem := m, stuck := true, freeCount := n } ∧ OutsideOutput s m) ∧
    (s.status.busy = false ∨ jobAccesses s.job kind a.toNat = false → step s = .next { s with inbox := rest })

/-- R68, as the model takes it (assumption 6): nothing but a reset ends a stuck job, no result code is left of it, and the
engine's turn changes nothing more. -/
def Obligations.StuckJobStays : Prop :=
  (∀ s t : State, s.status.busy = true → s.stuck = true → step s = .next t → nextAction s ≠ .reset →
    t.status.busy = true ∧ t.stuck = true ∧ t.job = s.job ∧
      (nextAction s ≠ .run .clear → t.status.done = s.status.done ∧ t.status.perr = s.status.perr)) ∧
  ∀ (i : Instr) (s : State), isFilterOp i = true → s.stuck = true → exec i s = .next s

/-! ## Primitives -/

/-- R101: the boundary sampler and its three cases. -/
def Obligations.BoundarySampler : Prop :=
  ∀ (c : Int) (limit : Nat), 1 ≤ limit →
    (clampCoord c limit : Int) = max 0 (min c (limit - 1)) ∧ clampCoord c limit ≤ limit - 1 ∧
    (c < 0 → clampCoord c limit = 0) ∧ ((limit : Int) ≤ c → clampCoord c limit = limit - 1) ∧
    (0 ≤ c → c < limit → (clampCoord c limit : Int) = c)

/-- R103 and R104: `Sat` of a rational p / d is its floor after adding a half, saturated to 0 … 255. -/
def Obligations.SaturatorRoundsHalfUp : Prop :=
  ∀ (p : Int) (d : Nat), 1 ≤ d → ((sat p d).toNat : Int) = min 255 (max 0 ⌊(p : ℚ) / d + 1 / 2⌋)

/-- R106: `SatSqrt(n)` is the real square root plus a half, rounded down and saturated. -/
def Obligations.SquareRootRounds : Prop :=
  ∀ n : Nat, ((satSqrt n).toNat : Int) = min 255 ⌊Real.sqrt n + 1 / 2⌋

/-- R114: the five reference kernels. -/
def Obligations.KernelPresets : Prop :=
  kq 1 0x00010000 = [29614, 17961] ∧
  kq 15 0x00050000 = [5240, 5135, 4836, 4376, 3804, 3178, 2550, 1966, 1457, 1037, 709, 466, 294, 178, 104, 58] ∧
  kq 1 0x00008000 = [51576, 6980] ∧ kq 1 0x0000199A = [65536, 0] ∧ kq 2 0x00010000 = [26386, 16004, 3571]

/-- R112 with R108: `KQ(r, s)` is the reference quantization of the ideal Gaussian weights over the reals, for every
legal radius and sigma code. -/
def Obligations.KernelIsReference : Prop :=
  ∀ r s : Nat, 1 ≤ r → r ≤ 15 → 1 ≤ s → s < 2 ^ 31 →
    ∀ (σ : ℝ) (g : Int → ℝ), σ = (s : ℝ) / 65536 → (∀ i : Int, g i = Real.exp (-((i : ℝ) * i) / (2 * σ * σ))) →
      (∀ i : Nat, 1 ≤ i → i ≤ r → (((kq r s).getD i 0 : Nat) : Int)
        = ⌊65536 * (g i / ∑ j ∈ Finset.Icc (-(r : Int)) r, g j) + 1 / 2⌋) ∧
      ((kq r s).getD 0 0 : Int) = 65536 - 2 * ∑ i ∈ Finset.Icc 1 r, ((kq r s).getD i 0 : Int)

/-- R113: the properties P1 to P4 of every kernel, for every legal radius and sigma code. P5, that a kernel depends on
these two only, is the type of `kq`. -/
def Obligations.KernelProperties : Prop :=
  ∀ r s : Nat, 1 ≤ r → r ≤ 15 → 1 ≤ s → s < 2 ^ 31 →
    ∀ (σ : ℝ) (g : Int → ℝ), σ = (s : ℝ) / 65536 → (∀ i : Int, g i = Real.exp (-((i : ℝ) * i) / (2 * σ * σ))) →
      (kq r s).length = r + 1 ∧ (∀ i, i ≤ r → (kq r s).getD i 0 ≤ 65536) ∧
      (kq r s).getD 0 0 + 2 * (∑ i ∈ Finset.Icc 1 r, (kq r s).getD i 0) = 65536 ∧
      (∀ i, 1 ≤ i → i < r → (kq r s).getD (i + 1) 0 ≤ (kq r s).getD i 0) ∧
      ∀ i : Nat, 1 ≤ i → i ≤ r →
        |((kq r s).getD i 0 : ℝ) - 65536 * (g i / ∑ j ∈ Finset.Icc (-(r : Int)) r, g j)| ≤ 1 / 2

/-! ## The whole machine -/

/-- R25: `BUSY` becomes 1 exactly when a `PROCESS` is accepted, and 0 only at the completion step of the running job
or at a reset. -/
def Obligations.BusyChangesExactly : Prop :=
  ∀ s t : State, step s = .next t →
    ((s.status.busy = false ∧ t.status.busy = true) ↔
      (s.status.busy = false ∧ nextAction s = .run .process ∧ processCheck s = none)) ∧
    (s.status.busy = true → t.status.busy = false →
      nextAction s = .reset ∨
        ∃ i, nextAction s = .run i ∧ isFilterOp i = true ∧ t.status = completedStatus (completionCode i) s)

/-- R27: `OVR` and `BADCMD` are set by the commands the rule names, and then only `CLEAR` and reset clear them. -/
def Obligations.StickyBitsStay : Prop :=
  (∀ s : State, s.status.busy = true → ∃ t, exec .process s = .next t ∧ t.status.ovr = true) ∧
  (∀ (w : Word) (s : State), ∃ t, exec (.cmdReserved w) s = .next t ∧ t.status.badcmd = true) ∧
  (∀ s t : State, step s = .next t → nextAction s ≠ .run .clear → nextAction s ≠ .reset →
    (s.status.ovr = true → t.status.ovr = true) ∧ (s.status.badcmd = true → t.status.badcmd = true)) ∧
  (∀ s t : State, step s = .next t → nextAction s = .run .clear ∨ nextAction s = .reset →
    t.status.ovr = false ∧ t.status.badcmd = false)

/-- R26 and R28: `DONE` and `PERR` change only at a `PROCESS` while no job runs, at the completion step of a running job,
at `CLEAR` and at reset; `CERR` only at `COMMIT`, `CLEAR` and reset. What they become there is stated with each of
these. -/
def Obligations.ResultCodesChangeOnlyAt : Prop :=
  ∀ s t : State, step s = .next t →
    ((t.status.done ≠ s.status.done ∨ t.status.perr ≠ s.status.perr) →
      (nextAction s = .run .process ∧ s.status.busy = false) ∨
      (s.status.busy = true ∧ t.status.busy = false ∧ ∃ i, nextAction s = .run i ∧ isFilterOp i = true) ∨
      nextAction s = .run .clear ∨ nextAction s = .reset) ∧
    (t.status.cerr ≠ s.status.cerr →
      nextAction s = .run .commit ∨ nextAction s = .run .clear ∨ nextAction s = .reset)

/-- R37: a staged register changes only by a host write or reset, an active register and the kernel only by a
successful `COMMIT` or reset, no `PROCESS` changes either, and a rejected `COMMIT` leaves the staged registers. -/
def Obligations.ParametersPersist : Prop :=
  (∀ s t : State, step s = .next t →
    (t.staged ≠ s.staged → nextAction s = .reset ∨
      ∃ p d, nextAction s = .run (.wr (.staged p) d) ∧ t.staged = paramSet p d s.staged) ∧
    ((t.active ≠ s.active ∨ t.kcoef ≠ s.kcoef) → nextAction s = .reset ∨
      (nextAction s = .run .commit ∧ paramsLegal s.staged = true ∧ t.active = s.staged ∧ t.status.cerr = .ok))) ∧
  (∀ s t : State, exec .process s = .next t → t.staged = s.staged ∧ t.active = s.active ∧ t.kcoef = s.kcoef) ∧
  (∀ s t : State, exec .commit s = .next t → t.staged = s.staged)

/-- R55, R61: the only bytes of buffer memory that a step changes are the one the host writes and, while a job runs,
bytes of its output range, changed by the engine, at a memory-port error or by a reset. -/
def Obligations.MemoryChangesOnlyInOutput : Prop :=
  ∀ s t : State, MemoryWf s.mem → step s = .next t → ∀ a, readByte t.mem a ≠ readByte s.mem a →
    (∃ address value, nextAction s = .store address value ∧ a = address.toNat) ∨
    (s.status.busy = true ∧ inOutput s.job a = true ∧
      (nextAction s = .reset ∨ (∃ kind b, nextAction s = .memoryError kind b) ∨
        ∃ i, nextAction s = .run i ∧ isFilterOp i = true))

/-- R61: while a job runs a host write to either range and a host read of the output range are refused; every other
host access to a byte the platform answers is performed, and changes nothing but that byte or the byte returned. -/
def Obligations.HostDutiesWhileBusy : Prop :=
  ∀ (s : State) (a : BitVec 32) (v : Byte) (rest : List Event),
    (s.inbox = .store a v :: rest → addressFails s.portErrors .write a.toNat = false →
      (s.status.busy = true ∧ (inInput s.job a.toNat = true ∨ inOutput s.job a.toNat = true) →
        step s = .refused .hostStoreDuringJob) ∧
      (¬ (s.status.busy = true ∧ (inInput s.job a.toNat = true ∨ inOutput s.job a.toNat = true)) →
        ∃ m, step s = .next { s with inbox := rest, mem := m } ∧
          (MemoryWf s.mem → ∀ b, readByte m b = if b = a.toNat then v else readByte s.mem b))) ∧
    (s.inbox = .load a :: rest → addressFails s.portErrors .read a.toNat = false →
      (s.status.busy = true ∧ inOutput s.job a.toNat = true → step s = .refused .hostLoadDuringJob) ∧
      (¬ (s.status.busy = true ∧ inOutput s.job a.toNat = true) →
        step s = .next { s with inbox := rest, loadData := readByte s.mem a.toNat }))

/-- R44, R183: while a job runs, nothing but the engine's own turn, a memory-port error and a reset changes the latch, ends
or stalls the job, or changes a byte of its input or output range. -/
def Obligations.RunningJobUndisturbed : Prop :=
  ∀ s t : State, MemoryWf s.mem → s.status.busy = true → step s = .next t → nextAction s ≠ .reset →
    (∀ kind a, nextAction s ≠ .memoryError kind a) → (∀ i, nextAction s = .run i → isFilterOp i = false) →
    t.job = s.job ∧ t.status.busy = true ∧ t.stuck = s.stuck ∧ t.scratch = s.scratch ∧
      ∀ a, inInput s.job a = true ∨ inOutput s.job a = true → readByte t.mem a = readByte s.mem a

/-- R220: the reset input sets every register of R21 to its reset value and ends the Run phase; when no job runs it
changes no byte of buffer memory. -/
def Obligations.ResetInput : Prop :=
  ∀ (s : State) (rest : List Event), s.inbox = .reset :: rest → ∃ t, step s = .next t ∧
    readReg t .id = 0x57460007#32 ∧ readReg t .status = 0#32 ∧ t.filter = 0#32 ∧
    t.width = 0#32 ∧ t.height = 0#32 ∧ t.inBase = 0#32 ∧ t.inLen = 0#32 ∧ t.outBase = 0#32 ∧ t.outLen = 0#32 ∧
    (∀ ps ∈ [t.staged, t.active], ps.brightNum = 6#32 ∧ ps.brightDen = 5#32 ∧ ps.blurRadius = 1#32 ∧
      ps.blurSigma = 0x00010000#32 ∧ ps.oilRadius = 1#32 ∧ ps.oilBuckets = 20#32) ∧
    coefficient t.kcoef 0 = 29614 ∧ coefficient t.kcoef 1 = 17961 ∧ (∀ i, 2 ≤ i → coefficient t.kcoef i = 0) ∧
    t.status.busy = false ∧ t.stuck = false ∧ t.inbox = rest ∧ (s.status.busy = false → t.mem = s.mem)

/-- R221: a reset during a job leaves no job and no result code; every byte of the output range holds a free value,
every other byte is unchanged, and the engine's next turn makes no memory access. -/
def Obligations.ResetDuringJob : Prop :=
  ∀ (s : State) (rest : List Event), MemoryWf s.mem → s.status.busy = true → s.inbox = .reset :: rest →
    ∃ t, step s = .next t ∧ t.status = Status.reset ∧
      (∀ a, inOutput s.job a = true → readByte t.mem a = Config.freeByte s.freeCount a) ∧
      (∀ a, inOutput s.job a = false → readByte t.mem a = readByte s.mem a) ∧
      step { t with inbox := [.engine] } = .next { t with inbox := [] }

/-- The state that R220 describes for power-up, before any access: the reset values, no job, and the invariant. The
values the spec leaves open (assumptions 3 to 7) do not enter. -/
def Obligations.ResetStateMeetsInvariant : Prop :=
  Inv State.reset ∧ State.reset.status.busy = false

/-- Every step keeps the invariant: canonical memories within their bounds (R50, R45), legal active parameters (R30),
a kernel that agrees with them (R38), a running job that the checks accepted (R25, R177), no stuck job that does not run
(R68), and `DONE` and `PERR` 0 while a job runs (R230). -/
def Obligations.StepKeepsInvariant : Prop :=
  ∀ s t : State, Inv s → step s = .next t → Inv t

/-- R53, R203: in a state that keeps the invariant no step ends in a fault: no address leaves buffer memory and no
image is larger than the scratch RAM. -/
def Obligations.InvariantExcludesFaults : Prop :=
  ∀ (s : State) (r : Fault), Inv s → step s ≠ .fault r

/-- R38 with R113: in a state that keeps the invariant the kernel is normalized over the active radius, falls away
from offset 1 on, and is 0 beyond the radius. -/
def Obligations.KernelNormalized : Prop :=
  ∀ (s : State) (r : Nat), Inv s → (r : Int) = s.active.blurRadius.toInt →
    coefficient s.kcoef 0 + 2 * (∑ i ∈ Finset.Icc 1 r, coefficient s.kcoef i) = 65536 ∧
    (∀ i, 1 ≤ i → i < r → coefficient s.kcoef (i + 1) ≤ coefficient s.kcoef i) ∧
    ∀ i, r < i → coefficient s.kcoef i = 0

/-- R46, R235: a running job reaches its completion or is ended by a reset (R221) once everything pending is done, unless a
memory-port error occurs: within one step more than the inbox is long the phase is Idle, or a host access was refused. It
rests on the model's choice that the engine takes its turn when the inbox is empty (assumption 8). -/
def Obligations.RunningJobCompletes : Prop :=
  ∀ s : State, Inv s → s.status.busy = true → s.stuck = false → s.portErrors = [] →
    (∀ kind a, Event.memoryError kind a ∉ s.inbox) →
    ∃ k, k ≤ s.inbox.length + 1 ∧
      ((∃ t, Sys2Proof.core.run k s = .next t ∧ t.status.busy = false) ∨
        ∃ r, Sys2Proof.core.run k s = .refused r)
end

