-- ==== Sys2Proof/Laws/Memory.lean ====
section
/-! SUPPORT. The laws of the byte store: what a read gives after a write, and that every memory operation keeps the
canonical form and the bound of the addresses. -/

namespace Sys2Proof.Machine

variable {m : Memory} {base : Nat} {f : Nat → Byte}

@[simp] theorem readByte_nil (a : Nat) : readByte [] a = unlistedByte := rfl

theorem readByte_cons (k : Nat) (v : Byte) (rest : Memory) (a : Nat) :
    readByte ((k, v) :: rest) a = if k = a then v else readByte rest a := rfl

/-- An address that is not listed reads as `unlistedByte`. -/
theorem readByte_unlisted {a : Nat} (h : ∀ c ∈ m, c.1 ≠ a) : readByte m a = unlistedByte := by
  induction m with
  | nil => rfl
  | cons c rest ih =>
    rw [readByte_cons, if_neg (h c (by simp)), ih fun d hd => h d (by simp [hd])]

/-- An address below every listed one reads as `unlistedByte`. -/
theorem readByte_below {a k : Nat} (hm : ∀ c ∈ m, k < c.1) (ha : a ≤ k) : readByte m a = unlistedByte :=
  readByte_unlisted fun c hc => by have := hm c hc; omega

/-- A listed cell is what its address reads as. -/
theorem readByte_mem (hm : MemoryWf m) {c : Host.Cell} (hc : c ∈ m) : readByte m c.1 = c.2 := by
  induction m with
  | nil => simp at hc
  | cons d rest ih =>
    obtain ⟨hs, hz⟩ := hm
    rw [List.pairwise_cons] at hs
    rcases List.mem_cons.mp hc with rfl | hc
    · show readByte ((c.1, c.2) :: rest) c.1 = c.2
      rw [readByte_cons, if_pos rfl]
    · have := hs.1 c hc
      rw [readByte_cons, if_neg (by omega), ih ⟨hs.2, fun e he => hz e (by simp [he])⟩ hc]

theorem readByte_consByte {k : Nat} {v : Byte} (hm : ∀ c ∈ m, k < c.1) (a : Nat) :
    readByte (consByte k v m) a = if k = a then v else readByte m a := by
  unfold consByte
  by_cases hv : v = unlistedByte
  · rw [if_pos hv]
    split
    · next h => rw [readByte_below hm (by omega), hv]
    · rfl
  · rw [if_neg hv, readByte_cons]

theorem mem_consByte {k : Nat} {v : Byte} {c : Host.Cell} (h : c ∈ consByte k v m) : c.1 = k ∨ c ∈ m := by
  unfold consByte at h
  split at h
  · exact .inr h
  · exact (List.mem_cons.mp h).imp (fun e => by rw [e]) id

/-- Every address a write lists was listed before or is the one written. -/
theorem fst_of_mem_writeByte {a : Nat} {v : Byte} {c : Host.Cell} (h : c ∈ writeByte m a v) :
    c.1 = a ∨ ∃ d ∈ m, d.1 = c.1 := by
  induction m with
  | nil => exact (mem_consByte h).imp id fun h => ⟨c, h, rfl⟩
  | cons d rest ih =>
    simp only [writeByte] at h
    split at h
    · exact (mem_consByte h).imp id fun h => ⟨c, h, rfl⟩
    · split at h
      · exact (mem_consByte h).imp id fun h => ⟨c, List.mem_cons_of_mem _ h, rfl⟩
      · rcases List.mem_cons.mp h with rfl | h
        · exact .inr ⟨_, List.mem_cons_self, rfl⟩
        · exact (ih h).imp id fun ⟨e, he, h⟩ => ⟨e, List.mem_cons_of_mem _ he, h⟩

/-- Reading after a write: the byte written at its address, the old byte everywhere else. -/
theorem readByte_writeByte (hm : MemoryWf m) (a b : Nat) (v : Byte) :
    readByte (writeByte m a v) b = if a = b then v else readByte m b := by
  induction m with
  | nil => exact readByte_consByte (by simp) b
  | cons d rest ih =>
    obtain ⟨k, u⟩ := d
    obtain ⟨hs, hz⟩ := hm
    rw [List.pairwise_cons] at hs
    simp only [writeByte]
    split
    · next hlt =>
      refine readByte_consByte (fun c hc => ?_) b
      rcases List.mem_cons.mp hc with rfl | hc
      · exact hlt
      · exact lt_trans hlt (hs.1 c hc)
    · split
      · next heq =>
        rw [readByte_consByte (fun c hc => heq ▸ hs.1 c hc), readByte_cons]
        split <;> simp_all
      · rw [readByte_cons, readByte_cons, ih ⟨hs.2, fun e he => hz e (by simp [he])⟩]
        split
        · split <;> first | rfl | omega
        · rfl

theorem consByte_wf {k : Nat} {v : Byte} (hm : MemoryWf m) (hk : ∀ c ∈ m, k < c.1) :
    MemoryWf (consByte k v m) := by
  unfold consByte
  split
  · exact hm
  · next hv =>
    refine ⟨List.pairwise_cons.mpr ⟨fun c hc => hk c hc, hm.1⟩, fun c hc => ?_⟩
    rcases List.mem_cons.mp hc with rfl | hc
    · exact hv
    · exact hm.2 c hc

/-- A write keeps the canonical form. -/
theorem writeByte_wf (hm : MemoryWf m) (a : Nat) (v : Byte) : MemoryWf (writeByte m a v) := by
  induction m with
  | nil => exact consByte_wf hm (by simp)
  | cons d rest ih =>
    obtain ⟨k, u⟩ := d
    have hs := List.pairwise_cons.mp hm.1
    have hrest : MemoryWf rest := ⟨hs.2, fun e he => hm.2 e (by simp [he])⟩
    simp only [writeByte]
    split
    · next hlt =>
      refine consByte_wf hm fun c hc => ?_
      rcases List.mem_cons.mp hc with rfl | hc
      · exact hlt
      · exact lt_trans hlt (hs.1 c hc)
    · split
      · next heq => exact consByte_wf hrest fun c hc => heq ▸ hs.1 c hc
      · next hlt hne =>
        have ih := ih hrest
        refine ⟨List.pairwise_cons.mpr ⟨fun c hc => ?_, ih.1⟩, fun c hc => ?_⟩
        · rcases fst_of_mem_writeByte hc with h | ⟨e, he, h⟩
          · show k < c.1; omega
          · have := hs.1 e he; show k < c.1; simp only at this; omega
        · rcases List.mem_cons.mp hc with rfl | hc
          · exact hm.2 _ (by simp)
          · exact ih.2 c hc

/-- A write below a bound keeps every address below it. -/
theorem writeByte_below {bound a : Nat} (hm : MemoryBelow bound m) (ha : a < bound) (v : Byte) :
    MemoryBelow bound (writeByte m a v) := fun c hc => by
  rcases fst_of_mem_writeByte hc with h | ⟨e, he, h⟩
  · omega
  · have := hm e he; omega

theorem writeRun_wf (hm : MemoryWf m) (n : Nat) : MemoryWf (writeRun m base f n) := by
  induction n with
  | zero => exact hm
  | succ n ih => exact writeByte_wf ih _ _

theorem writeRun_below {bound : Nat} (hm : MemoryBelow bound m) (n : Nat) (hn : n = 0 ∨ base + n ≤ bound) :
    MemoryBelow bound (writeRun m base f n) := by
  induction n with
  | zero => exact hm
  | succ n ih => exact writeByte_below (ih (by omega)) (by omega) _

/-- Reading after a run of writes: `f` at its addresses, the old byte everywhere else. -/
theorem readByte_writeRun (hm : MemoryWf m) (n a : Nat) :
    readByte (writeRun m base f n) a = if base ≤ a ∧ a < base + n then f (a - base) else readByte m a := by
  induction n with
  | zero => rw [if_neg (by omega)]; rfl
  | succ n ih =>
    rw [writeRun, readByte_writeByte (writeRun_wf hm n), ih]
    by_cases h : base + n = a
    · rw [if_pos h, if_pos (by omega), show a - base = n by omega]
    · rw [if_neg h]
      by_cases h' : base ≤ a ∧ a < base + n
      · rw [if_pos h', if_pos (by omega)]
      · rw [if_neg h', if_neg (by omega)]

/-- Two memories in canonical form that read the same everywhere are the same data. -/
theorem memory_ext {m₁ m₂ : Memory} (h₁ : MemoryWf m₁) (h₂ : MemoryWf m₂)
    (h : ∀ a, readByte m₁ a = readByte m₂ a) : m₁ = m₂ := by
  induction m₁ generalizing m₂ with
  | nil =>
    cases m₂ with
    | nil => rfl
    | cons d rest =>
      have := h d.1
      rw [readByte_mem h₂ (by simp : d ∈ d :: rest)] at this
      exact absurd this.symm (h₂.2 d (by simp))
  | cons c r₁ ih =>
    have hs₁ := List.pairwise_cons.mp h₁.1
    have w₁ : MemoryWf r₁ := ⟨hs₁.2, fun e he => h₁.2 e (by simp [he])⟩
    cases m₂ with
    | nil =>
      have := h c.1
      rw [readByte_mem h₁ (by simp : c ∈ c :: r₁)] at this
      exact absurd this (h₁.2 c (by simp))
    | cons d r₂ =>
      have hs₂ := List.pairwise_cons.mp h₂.1
      have w₂ : MemoryWf r₂ := ⟨hs₂.2, fun e he => h₂.2 e (by simp [he])⟩
      obtain ⟨k₁, v₁⟩ := c
      obtain ⟨k₂, v₂⟩ := d
      have e₁ := h k₁
      have e₂ := h k₂
      simp only [readByte_cons, if_true] at e₁ e₂
      have hk : k₁ = k₂ := by
        rcases lt_trichotomy k₁ k₂ with hlt | heq | hgt
        · rw [if_neg (by omega), readByte_below (fun c hc => hs₂.1 c hc) (by omega)] at e₁
          exact absurd e₁ (h₁.2 (k₁, v₁) (by simp))
        · exact heq
        · rw [if_neg (by omega), readByte_below (fun c hc => hs₁.1 c hc) (by omega)] at e₂
          exact absurd e₂.symm (h₂.2 (k₂, v₂) (by simp))
      subst hk
      rw [if_pos rfl] at e₁
      subst e₁
      rw [ih w₁ w₂ fun a => ?_]
      have ha := h a
      simp only [readByte_cons] at ha
      by_cases hka : k₁ = a
      · subst hka
        rw [readByte_below (fun c hc => hs₁.1 c hc) le_rfl, readByte_below (fun c hc => hs₂.1 c hc) le_rfl]
      · rwa [if_neg hka, if_neg hka] at ha

/-- A range answers exactly when none of its addresses fails. -/
theorem rangeAnswers_iff (errors : List PortError) (kind : AccessKind) (base n : Nat) :
    rangeAnswers errors kind base n = true ↔ ∀ a, base ≤ a → a < base + n → addressFails errors kind a = false := by
  induction n with
  | zero => simp only [rangeAnswers, true_iff]; intro a h₁ h₂; omega
  | succ n ih =>
    simp only [rangeAnswers, Bool.and_eq_true, Bool.not_eq_true', ih]
    constructor
    · rintro ⟨h₀, h⟩ a h₁ h₂
      rcases Nat.lt_succ_iff_lt_or_eq.mp (show a < (base + n) + 1 by omega) with h' | rfl
      · exact h a h₁ h'
      · exact h₀
    · exact fun h => ⟨h _ (by omega) (by omega), fun a h₁ h₂ => h a h₁ (by omega)⟩

end Sys2Proof.Machine
end

