-- ==== Sys2Proof/Laws/Operands.lean ====
section
/-! SUPPORT. The operand forms in plain terms: when a parameter set is legal, and a non-negative signed word read both
ways. -/

namespace Sys2Proof.Machine

/-- The legality of a parameter set, as R205 lists it. -/
theorem paramsLegal_iff (ps : Params) : paramsLegal ps = true ↔
    0 ≤ ps.brightNum.toInt ∧ 1 ≤ ps.brightDen.toNat ∧ (1 ≤ ps.blurRadius.toInt ∧ ps.blurRadius.toInt ≤ 15) ∧
      1 ≤ ps.blurSigma.toInt ∧ (1 ≤ ps.oilRadius.toInt ∧ ps.oilRadius.toInt ≤ 15) ∧
      1 ≤ ps.oilBuckets.toInt ∧ ps.oilBuckets.toInt ≤ 256 := by
  simp only [paramsLegal, paramLegal, Bool.and_eq_true, decide_eq_true_eq, and_assoc]

/-- A word that is not negative as a signed number has one value. -/
theorem toNat_toInt_of_nonneg {w : Word} (h : 0 ≤ w.toInt) : w.toInt.toNat = w.toNat := by
  have := w.isLt
  rw [BitVec.toInt_eq_toNat_cond] at *
  split at * <;> omega

/-- A signed word is below 2^31. -/
theorem toInt_lt (w : Word) : w.toInt < 2 ^ 31 := by
  have := w.isLt
  rw [BitVec.toInt_eq_toNat_cond] at *
  split at * <;> omega

end Sys2Proof.Machine
end

