-- ==== Sys2Proof/Laws/Commands.lean ====
section
/-! SUPPORT. What each command and the reset input can do, said once. -/

namespace Sys2Proof.Machine

variable (s : State)

/-- The two outcomes of `COMMIT` (R176). -/
theorem commitCommand_cases :
    (paramsLegal s.staged = true ∧ commitCommand s = { s with
      active := s.staged
      kcoef := kernelFile (sext32 s.staged.blurRadius).toNat (sext32 s.staged.blurSigma).toNat
      status := statusCommitted .ok s.status }) ∨
    (paramsLegal s.staged = false ∧
      commitCommand s = { s with status := statusCommitted .invalidParameter s.status }) := by
  unfold commitCommand
  split
  · next h => exact .inl ⟨h, rfl⟩
  · next h => exact .inr ⟨by simpa using h, rfl⟩

/-- The three outcomes of `PROCESS` (R177): ignored, rejected, accepted. -/
theorem processCommand_cases :
    (s.status.busy = true ∧ processCommand s = { s with status := statusOverrun s.status }) ∨
    (s.status.busy = false ∧ ∃ code, processCheck s = some code ∧
      processCommand s = { s with status := statusRejected code s.status }) ∨
    (s.status.busy = false ∧ processCheck s = none ∧
      processCommand s = { s with job := latchedJob s, status := statusAccepted s.status }) := by
  unfold processCommand
  split
  · next h => exact .inl ⟨h, rfl⟩
  · next h =>
    have hb : s.status.busy = false := by simpa using h
    split
    · next code hc => exact .inr (.inl ⟨hb, code, hc, rfl⟩)
    · next hc => exact .inr (.inr ⟨hb, hc, rfl⟩)

/-- What the checks of `PROCESS` leave when none applies (R207). -/
theorem processCheck_none (h : processCheck s = none) :
    (0 < s.width.toInt ∧ 0 < s.height.toInt) ∧
    ((s.inLen.toNat : Int) = s.width.toInt * s.height.toInt * 4 ∧
      (s.outLen.toNat : Int) = s.width.toInt * s.height.toInt * 4) ∧
    ((s.inBase.toNat : Int) + s.width.toInt * s.height.toInt * 4 ≤ Config.addressSpace ∧
      (s.outBase.toNat : Int) + s.width.toInt * s.height.toInt * 4 ≤ Config.addressSpace) ∧
    ((s.inBase.toNat : Int) = s.outBase.toNat ∨ s.width.toInt * s.height.toInt * 4 ≤
      ((s.inBase.toNat : Int) - s.outBase.toNat).natAbs) ∧
    (usesScratch s.filter = true → s.width.toInt * s.height.toInt * 4 ≤ s.scratchCap) := by
  simp only [processCheck, sext32, zext32] at h
  split at h
  · cases h
  · split at h
    · cases h
    · split at h
      · cases h
      · split at h
        · cases h
        · split at h
          · cases h
          · next h₁ h₂ h₃ h₄ h₅ =>
            refine ⟨by omega, by omega, by omega, by omega, fun hu => ?_⟩
            by_contra hc
            exact h₅ ⟨hu, by omega⟩

variable {s}

/-- The job that an accepted `PROCESS` latches is as long as the geometry says. -/
theorem jobBytes_latchedJob (hw : 0 < s.width.toInt) (hh : 0 < s.height.toInt) :
    (jobBytes (latchedJob s) : Int) = s.width.toInt * s.height.toInt * 4 := by
  simp only [jobBytes, latchedJob, sext32]
  push_cast
  rw [Int.toNat_of_nonneg (by omega), Int.toNat_of_nonneg (by omega)]

/-! ## The reset input -/

@[simp] theorem hardwareReset_status : (hardwareReset s).status = Status.reset := by unfold hardwareReset; split <;> rfl
@[simp] theorem hardwareReset_active : (hardwareReset s).active = Params.reset := by unfold hardwareReset; split <;> rfl
@[simp] theorem hardwareReset_staged : (hardwareReset s).staged = Params.reset := by unfold hardwareReset; split <;> rfl
@[simp] theorem hardwareReset_kcoef : (hardwareReset s).kcoef = KernelFile.reset := by unfold hardwareReset; split <;> rfl
@[simp] theorem hardwareReset_job : (hardwareReset s).job = Job.reset := by unfold hardwareReset; split <;> rfl
@[simp] theorem hardwareReset_stuck : (hardwareReset s).stuck = false := by unfold hardwareReset; split <;> rfl
@[simp] theorem hardwareReset_scratch : (hardwareReset s).scratch = [] := by unfold hardwareReset; split <;> rfl
@[simp] theorem hardwareReset_scratchCap : (hardwareReset s).scratchCap = s.scratchCap := by
  unfold hardwareReset; split <;> rfl
@[simp] theorem hardwareReset_portErrors : (hardwareReset s).portErrors = s.portErrors := by
  unfold hardwareReset; split <;> rfl
@[simp] theorem hardwareReset_inbox : (hardwareReset s).inbox = s.inbox := by unfold hardwareReset; split <;> rfl

/-- Buffer memory after a reset: unchanged when no job runs, else the abandoned job's output range is any value. -/
theorem hardwareReset_mem : (s.status.busy = true ∧ (hardwareReset s).mem = (scrambleOutput s).mem) ∨
    (s.status.busy = false ∧ (hardwareReset s).mem = s.mem) := by
  unfold hardwareReset
  split
  · next h => exact .inl ⟨h, rfl⟩
  · next h => exact .inr ⟨by simpa using h, rfl⟩

end Sys2Proof.Machine
end

