-- ==== Sys2Proof/Laws/Image.lean ====
section
/-! SUPPORT. The laws of the shared primitives: the layout of an image in a byte store, the boundary sampler, the
saturator and the integer square root. -/

namespace Sys2Proof.Machine

variable {m : Memory} {base w h : Nat} {img : Image}

/-! ## Images -/

/-- Byte `c` of pixel (x, y) of an image is that pixel's channel at offset `c`. -/
theorem imageByte_index {x y c : Nat} (hx : x < w) (hc : c < 4) :
    imageByte img w (pixelIndex w x y + c) = channelOf (img x y) (channelAt c) := by
  have hq : (pixelIndex w x y + c) / 4 = x + w * y := by unfold pixelIndex; rw [Nat.mul_comm y w]; omega
  have hr : (pixelIndex w x y + c) % 4 = c := by unfold pixelIndex; omega
  have hw : 0 < w := by omega
  simp only [imageByte, hq, hr, Nat.add_mul_mod_self_left, Nat.mod_eq_of_lt hx, Nat.add_mul_div_left _ _ hw,
    Nat.div_eq_of_lt hx, Nat.zero_add]

/-- A pixel of the image lies within its bytes (R100). -/
theorem pixelIndex_lt {x y : Nat} (hx : x < w) (hy : y < h) : pixelIndex w x y + 3 < w * h * 4 := by
  have h₁ : y * w + x < h * w := by
    calc y * w + x < y * w + w := by omega
      _ = (y + 1) * w := by ring
      _ ≤ h * w := Nat.mul_le_mul_right _ hy
  unfold pixelIndex
  rw [Nat.mul_comm w h]
  omega

/-- What is read back from where an image was written is that image. -/
theorem readImage_writeImage (hm : MemoryWf m) {x y : Nat} (hx : x < w) (hy : y < h) :
    readImage (writeImage m base w h img) base w x y = img x y := by
  have hlt := pixelIndex_lt (w := w) (h := h) hx hy
  have hb : ∀ c, c < 4 → readByte (writeImage m base w h img) (base + (pixelIndex w x y + c))
      = channelOf (img x y) (channelAt c) := fun c hc => by
    rw [writeImage, readByte_writeRun hm, if_pos (by omega), Nat.add_sub_cancel_left, imageByte_index hx hc]
  have h₀ := hb 0 (by omega)
  have h₁ := hb 1 (by omega)
  have h₂ := hb 2 (by omega)
  have h₃ := hb 3 (by omega)
  simp only [Nat.add_zero, ← Nat.add_assoc] at h₀ h₁ h₂ h₃
  simp only [readImage, h₀, h₁, h₂, h₃, channelOf, channelAt]

/-- Outside an image's bytes, writing it changes no byte. -/
theorem readByte_writeImage_outside (hm : MemoryWf m) {a : Nat} (ha : ¬ (base ≤ a ∧ a < base + w * h * 4)) :
    readByte (writeImage m base w h img) a = readByte m a := by
  rw [writeImage, readByte_writeRun hm, if_neg ha]

theorem writeImage_wf (hm : MemoryWf m) : MemoryWf (writeImage m base w h img) := writeRun_wf hm _

theorem writeImage_below {bound : Nat} (hm : MemoryBelow bound m) (hn : w * h * 4 = 0 ∨ base + w * h * 4 ≤ bound) :
    MemoryBelow bound (writeImage m base w h img) := writeRun_below hm _ hn

/-- Two images that agree on their pixels are written alike. -/
theorem writeImage_congr {img' : Image} (hi : ∀ x y, x < w → y < h → img x y = img' x y) :
    writeImage m base w h img = writeImage m base w h img' := by
  have hrun : ∀ n, n ≤ w * h * 4 →
      writeRun m base (imageByte img w) n = writeRun m base (imageByte img' w) n := by
    intro n hn
    induction n with
    | zero => rfl
    | succ n ih =>
      have hw : 0 < w := Nat.pos_of_ne_zero fun h0 => by subst h0; simp at hn
      have hy : n / 4 / w < h := by
        rw [Nat.div_div_eq_div_mul, Nat.div_lt_iff_lt_mul (by omega)]
        have : w * h * 4 = h * (4 * w) := by ring
        omega
      rw [writeRun, writeRun, ih (by omega), imageByte, imageByte, hi _ _ (Nat.mod_lt _ hw) hy]
  exact hrun _ le_rfl

/-- Two stores that read alike over an image's bytes hold the same image there. -/
theorem readImage_congr {m' : Memory} {x y : Nat} (hx : x < w) (hy : y < h)
    (hr : ∀ a, base ≤ a → a < base + w * h * 4 → readByte m a = readByte m' a) :
    readImage m base w x y = readImage m' base w x y := by
  have hlt := pixelIndex_lt (w := w) (h := h) hx hy
  simp only [readImage]
  rw [hr _ (by omega) (by omega), hr (base + pixelIndex w x y + 1) (by omega) (by omega),
    hr (base + pixelIndex w x y + 2) (by omega) (by omega), hr (base + pixelIndex w x y + 3) (by omega) (by omega)]

/-! ## The boundary sampler -/

/-- The sampler stays within the limit (R101). -/
theorem clampCoord_lt {limit : Nat} (hl : 1 ≤ limit) (c : Int) : clampCoord c limit < limit := by
  unfold clampCoord; omega

/-- The sampler leaves a coordinate that is in range (R101). -/
theorem clampCoord_of_mem {c limit : Nat} (hc : c < limit) : clampCoord c limit = c := by
  unfold clampCoord; omega

/-! ## The saturator -/

theorem toNat_ofNat_min (n : Nat) : (BitVec.ofNat 8 (min 255 n)).toNat = min 255 n := by
  rw [BitVec.toNat_ofNat, Nat.mod_eq_of_lt (by omega)]

/-- `Sat` of a non-negative ratio, in naturals (R104). -/
theorem sat_toNat (p d : Nat) : (sat p d).toNat = min 255 ((2 * p + d) / (2 * d)) := by
  have hc : ((2 * (p : Int) + d) / (2 * d)) = (((2 * p + d) / (2 * d) : Nat) : Int) := by push_cast; rfl
  have hn : ∀ q : Nat, (min 255 (max 0 (q : Int))).toNat = min 255 q := fun q => by
    rcases le_total q 255 with h | h
    · rw [max_eq_right (by omega), min_eq_right (by omega), min_eq_right h]; rfl
    · rw [max_eq_right (by omega), min_eq_left (by omega), min_eq_left h]; rfl
  rw [sat, hc, hn, toNat_ofNat_min]

theorem satK_toNat (acc : Nat) : (satK acc).toNat = min 255 ((acc + 32768) / 65536) := toNat_ofNat_min _

/-! ## The integer square root -/

theorem isqrtBits_spec (m n k : Nat) (hk : k * k ≤ m) (hm : m < (k + 2 ^ n) * (k + 2 ^ n)) :
    isqrtBits m n k * isqrtBits m n k ≤ m ∧ m < (isqrtBits m n k + 1) * (isqrtBits m n k + 1) := by
  induction n generalizing k with
  | zero => exact ⟨hk, by simpa [isqrtBits] using hm⟩
  | succ n ih =>
    simp only [isqrtBits]
    split
    · next hle => exact ih _ hle (by rw [show k + 2 ^ n + 2 ^ n = k + 2 ^ (n + 1) by ring]; exact hm)
    · next hgt => exact ih _ hk (by omega)

/-- `isqrt(m)` is the largest k with k·k ≤ m (R10). -/
theorem isqrt_spec (m : Nat) : isqrt m * isqrt m ≤ m ∧ m < (isqrt m + 1) * (isqrt m + 1) := by
  refine isqrtBits_spec m _ 0 (by simp) ?_
  rw [Nat.zero_add, ← pow_add]
  calc m < 2 ^ (m.log2 + 1) := Nat.lt_log2_self
    _ ≤ 2 ^ (m.log2 / 2 + 1 + (m.log2 / 2 + 1)) := Nat.pow_le_pow_right (by omega) (by omega)

theorem satSqrt_toNat (m : Nat) :
    (satSqrt m).toNat = min 255 (if m - isqrt m * isqrt m > isqrt m then isqrt m + 1 else isqrt m) :=
  toNat_ofNat_min _

/-! ## Neighbourhoods -/

/-- The offsets of a neighbourhood are the integers from -r to r (R110, R162). -/
theorem mem_offsets (r : Nat) (i : Int) : i ∈ offsets r ↔ -(r : Int) ≤ i ∧ i ≤ r := by
  rw [offsets, List.mem_map]
  constructor
  · rintro ⟨k, hk, rfl⟩
    have := List.mem_range.mp hk
    omega
  · rintro ⟨h₁, h₂⟩
    exact ⟨(i + r).toNat, List.mem_range.mpr (by omega), by omega⟩

/-- A sum over the offsets of a neighbourhood is the sum over the integers from -r to r. -/
theorem sum_offsets (r : Nat) (f : Int → Nat) :
    ((offsets r).map f).sum = ∑ i ∈ Finset.Icc (-(r : Int)) r, f i := by
  have hnd : (offsets r).Nodup := List.Nodup.map (fun a b h => by simpa using h) List.nodup_range
  have hset : (offsets r).toFinset = Finset.Icc (-(r : Int)) r := by ext i; simp [mem_offsets]
  rw [← hset, List.sum_toFinset _ hnd]

theorem length_offsets (r : Nat) : (offsets r).length = 2 * r + 1 := by simp [offsets]

end Sys2Proof.Machine
end

