-- ==== Sys2Proof/Laws/State.lean ====
section
/-! SUPPORT. What each update of the state leaves in each field, so that no later proof unfolds an update. -/

namespace Sys2Proof.Machine

variable (st : Status) (s : State) (code : ProcessCode) (ccode : CommitCode)

/-! ## `STATUS` -/

@[simp] theorem statusAccepted_busy : (statusAccepted st).busy = true := rfl
@[simp] theorem statusAccepted_done : (statusAccepted st).done = false := rfl
@[simp] theorem statusAccepted_perr : (statusAccepted st).perr = .ok := rfl
@[simp] theorem statusAccepted_ovr : (statusAccepted st).ovr = st.ovr := rfl
@[simp] theorem statusAccepted_badcmd : (statusAccepted st).badcmd = st.badcmd := rfl
@[simp] theorem statusAccepted_cerr : (statusAccepted st).cerr = st.cerr := rfl
@[simp] theorem statusRejected_busy : (statusRejected code st).busy = st.busy := rfl
@[simp] theorem statusRejected_done : (statusRejected code st).done = true := rfl
@[simp] theorem statusRejected_perr : (statusRejected code st).perr = code := rfl
@[simp] theorem statusRejected_ovr : (statusRejected code st).ovr = st.ovr := rfl
@[simp] theorem statusRejected_badcmd : (statusRejected code st).badcmd = st.badcmd := rfl
@[simp] theorem statusRejected_cerr : (statusRejected code st).cerr = st.cerr := rfl
@[simp] theorem statusOverrun_busy : (statusOverrun st).busy = st.busy := rfl
@[simp] theorem statusOverrun_done : (statusOverrun st).done = st.done := rfl
@[simp] theorem statusOverrun_perr : (statusOverrun st).perr = st.perr := rfl
@[simp] theorem statusOverrun_ovr : (statusOverrun st).ovr = true := rfl
@[simp] theorem statusOverrun_badcmd : (statusOverrun st).badcmd = st.badcmd := rfl
@[simp] theorem statusOverrun_cerr : (statusOverrun st).cerr = st.cerr := rfl
@[simp] theorem statusCompleted_busy : (statusCompleted code st).busy = false := rfl
@[simp] theorem statusCompleted_done : (statusCompleted code st).done = true := rfl
@[simp] theorem statusCompleted_perr : (statusCompleted code st).perr = code := rfl
@[simp] theorem statusCompleted_ovr : (statusCompleted code st).ovr = st.ovr := rfl
@[simp] theorem statusCompleted_badcmd : (statusCompleted code st).badcmd = st.badcmd := rfl
@[simp] theorem statusCompleted_cerr : (statusCompleted code st).cerr = st.cerr := rfl
@[simp] theorem statusCommitted_busy : (statusCommitted ccode st).busy = st.busy := rfl
@[simp] theorem statusCommitted_done : (statusCommitted ccode st).done = st.done := rfl
@[simp] theorem statusCommitted_perr : (statusCommitted ccode st).perr = st.perr := rfl
@[simp] theorem statusCommitted_ovr : (statusCommitted ccode st).ovr = st.ovr := rfl
@[simp] theorem statusCommitted_badcmd : (statusCommitted ccode st).badcmd = st.badcmd := rfl
@[simp] theorem statusCommitted_cerr : (statusCommitted ccode st).cerr = ccode := rfl
@[simp] theorem statusCleared_busy : (statusCleared st).busy = st.busy := rfl
@[simp] theorem statusCleared_done : (statusCleared st).done = false := rfl
@[simp] theorem statusCleared_perr : (statusCleared st).perr = .ok := rfl
@[simp] theorem statusCleared_ovr : (statusCleared st).ovr = false := rfl
@[simp] theorem statusCleared_badcmd : (statusCleared st).badcmd = false := rfl
@[simp] theorem statusCleared_cerr : (statusCleared st).cerr = .ok := rfl
@[simp] theorem statusBadCommand_busy : (statusBadCommand st).busy = st.busy := rfl
@[simp] theorem statusBadCommand_done : (statusBadCommand st).done = st.done := rfl
@[simp] theorem statusBadCommand_perr : (statusBadCommand st).perr = st.perr := rfl
@[simp] theorem statusBadCommand_ovr : (statusBadCommand st).ovr = st.ovr := rfl
@[simp] theorem statusBadCommand_badcmd : (statusBadCommand st).badcmd = true := rfl
@[simp] theorem statusBadCommand_cerr : (statusBadCommand st).cerr = st.cerr := rfl

/-! ## Parameters -/

@[simp] theorem paramGet_paramSet (p : Param) (w : Word) (ps : Params) : paramGet (paramSet p w ps) p = w := by
  cases p <;> rfl

theorem paramGet_paramSet_of_ne {p p' : Param} (h : p ≠ p') (w : Word) (ps : Params) :
    paramGet (paramSet p w ps) p' = paramGet ps p' := by
  cases p <;> cases p' <;> first | rfl | exact absurd rfl h

/-! ## The memory effects: all fields but the one written -/

variable (f : Pixel → Pixel) (g h : Image → Image)

@[simp] theorem completeJob_status : (completeJob code s).status = statusCompleted code s.status := rfl
@[simp] theorem completeJob_mem : (completeJob code s).mem = s.mem := rfl
@[simp] theorem completeJob_scratch : (completeJob code s).scratch = s.scratch := rfl
@[simp] theorem completeJob_stuck : (completeJob code s).stuck = s.stuck := rfl
@[simp] theorem completeJob_job : (completeJob code s).job = s.job := rfl

@[simp] theorem pointwiseEffect_status : (pointwiseEffect f s).status = s.status := rfl
@[simp] theorem pointwiseEffect_job : (pointwiseEffect f s).job = s.job := rfl
@[simp] theorem pointwiseEffect_scratch : (pointwiseEffect f s).scratch = s.scratch := rfl
@[simp] theorem pointwiseEffect_active : (pointwiseEffect f s).active = s.active := rfl
@[simp] theorem pointwiseEffect_staged : (pointwiseEffect f s).staged = s.staged := rfl
@[simp] theorem pointwiseEffect_kcoef : (pointwiseEffect f s).kcoef = s.kcoef := rfl

@[simp] theorem fillScratch_mem : (fillScratch g s).mem = s.mem := rfl
@[simp] theorem fillScratch_job : (fillScratch g s).job = s.job := rfl
@[simp] theorem fillScratch_status : (fillScratch g s).status = s.status := rfl
@[simp] theorem drainScratch_scratch : (drainScratch h s).scratch = s.scratch := rfl
@[simp] theorem drainScratch_job : (drainScratch h s).job = s.job := rfl
@[simp] theorem drainScratch_status : (drainScratch h s).status = s.status := rfl

@[simp] theorem stagedEffect_status : (stagedEffect g h s).status = s.status := rfl
@[simp] theorem stagedEffect_job : (stagedEffect g h s).job = s.job := rfl
@[simp] theorem stagedEffect_active : (stagedEffect g h s).active = s.active := rfl
@[simp] theorem stagedEffect_staged : (stagedEffect g h s).staged = s.staged := rfl
@[simp] theorem stagedEffect_kcoef : (stagedEffect g h s).kcoef = s.kcoef := rfl

@[simp] theorem scrambleOutput_status : (scrambleOutput s).status = s.status := rfl
@[simp] theorem scrambleOutput_job : (scrambleOutput s).job = s.job := rfl
@[simp] theorem scrambleOutput_freeCount : (scrambleOutput s).freeCount = s.freeCount + 1 := rfl
@[simp] theorem scrambleOutput_stuck : (scrambleOutput s).stuck = s.stuck := rfl
@[simp] theorem stallJob_status : (stallJob s).status = s.status := rfl
@[simp] theorem stallJob_job : (stallJob s).job = s.job := rfl
@[simp] theorem stallJob_stuck : (stallJob s).stuck = true := rfl
@[simp] theorem stallJob_mem : (stallJob s).mem = (scrambleOutput s).mem := rfl

/-! ## Reset -/

@[simp] theorem resetRegisters_stuck : (resetRegisters s).stuck = false := rfl

@[simp] theorem resetRegisters_status : (resetRegisters s).status = Status.reset := rfl
@[simp] theorem resetRegisters_active : (resetRegisters s).active = Params.reset := rfl
@[simp] theorem resetRegisters_staged : (resetRegisters s).staged = Params.reset := rfl
@[simp] theorem resetRegisters_kcoef : (resetRegisters s).kcoef = KernelFile.reset := rfl
@[simp] theorem resetRegisters_job : (resetRegisters s).job = Job.reset := rfl
@[simp] theorem resetRegisters_mem : (resetRegisters s).mem = s.mem := rfl
@[simp] theorem resetRegisters_scratch : (resetRegisters s).scratch = [] := rfl
@[simp] theorem resetRegisters_scratchCap : (resetRegisters s).scratchCap = s.scratchCap := rfl
@[simp] theorem resetRegisters_portErrors : (resetRegisters s).portErrors = s.portErrors := rfl
@[simp] theorem resetRegisters_inbox : (resetRegisters s).inbox = s.inbox := rfl

end Sys2Proof.Machine
end

