-- ==== Sys2Proof/Laws/Job.lean ====
section
/-! SUPPORT. What the shared frame of the filter operations can do, said once: `runJob` and the two shapes of a
memory effect. -/

namespace Sys2Proof.Machine

variable {spatial : Bool} {code : ProcessCode} {effect : State → State} {s t : State}

/-- A job depends on its effect only at the state it runs in. -/
theorem runJob_congr {effect' : State → State} (h : effect s = effect' s) :
    runJob spatial code effect s = runJob spatial code effect' s := by
  unfold runJob
  rw [h]

/-- A ready job completes: its effect, then the completion of R178. -/
theorem runJob_ready (h : JobReady spatial s) : runJob spatial code effect s = .next (completeJob code (effect s)) := by
  unfold runJob
  rw [if_neg (by simp [h.busy, h.not_stuck]), if_neg (by have := h.input_fits; have := h.output_fits; omega),
    if_neg (fun hs => absurd (h.scratch_fits hs.1) (by omega)), if_pos ⟨h.input_answers, h.output_answers⟩]

/-- With no job there is nothing to run, and a stuck job does not go on. -/
theorem runJob_idle (h : s.status.busy = false ∨ s.stuck = true) : runJob spatial code effect s = .next s := by
  rw [runJob, if_pos h]

/-- When a filter operation answers a next state, then there was no job or a stuck one, or the job completed, or it
met a memory-port error and stalled. -/
theorem runJob_next (h : runJob spatial code effect s = .next t) :
    ((s.status.busy = false ∨ s.stuck = true) ∧ t = s) ∨ (JobReady spatial s ∧ t = completeJob code (effect s)) ∨
      (s.status.busy = true ∧ s.stuck = false ∧ s.job.outBase + jobBytes s.job ≤ Config.addressSpace ∧ t = stallJob s) := by
  unfold runJob at h
  split at h
  · next hb => exact .inl ⟨hb, by injection h with h; exact h.symm⟩
  · next hb =>
    have hb : s.status.busy = true ∧ s.stuck = false := by simpa using hb
    split at h
    · cases h
    · next hf =>
      split at h
      · cases h
      · next hs =>
        split at h
        · next ha =>
          refine .inr (.inl ⟨⟨hb.1, hb.2, by omega, by omega, fun hsp => ?_, ha.1, ha.2⟩, by injection h with h; exact h.symm⟩)
          by_contra hc
          exact hs ⟨hsp, by omega⟩
        · exact .inr (.inr ⟨hb.1, hb.2, by omega, by injection h with h; exact h.symm⟩)

/-- When a filter operation stops, its job leaves buffer memory or the scratch RAM. -/
theorem runJob_fault {r : Fault} (h : runJob spatial code effect s = .fault r) :
    s.status.busy = true ∧ (Config.addressSpace < s.job.inBase + jobBytes s.job ∨
      Config.addressSpace < s.job.outBase + jobBytes s.job ∨ (spatial = true ∧ s.scratchCap < jobBytes s.job)) := by
  unfold runJob at h
  split at h
  · cases h
  · next hb =>
    have hb : s.status.busy = true ∧ s.stuck = false := by simpa using hb
    refine ⟨hb.1, ?_⟩
    split at h
    · next hf => tauto
    · split at h
      · next hs => exact .inr (.inr hs)
      · split at h <;> cases h

/-- A filter operation is never refused. -/
theorem runJob_not_refused {r : Refusal} : runJob spatial code effect s ≠ .refused r := by
  unfold runJob
  repeat' split
  all_goals simp

/-! ## The memory effects -/

variable {f : Pixel → Pixel} {phase1 phase2 : Image → Image}

theorem jobBytes_eq (j : Job) : jobBytes j = j.width * j.height * 4 := rfl

/-- The output pixels of a pointwise filter (R120). -/
theorem outputImage_pointwiseEffect (hm : MemoryWf s.mem) {x y : Nat} (hx : x < s.job.width) (hy : y < s.job.height) :
    readImage (pointwiseEffect f s).mem s.job.outBase s.job.width x y = f (inputImage s x y) :=
  readImage_writeImage hm hx hy

/-- The scratch image that phase 1 of a spatial filter leaves (R141, R153, R160). -/
theorem scratchImage_fillScratch (hm : MemoryWf s.scratch) {x y : Nat} (hx : x < s.job.width) (hy : y < s.job.height) :
    scratchImage (fillScratch phase1 s) x y = phase1 (inputImage s) x y :=
  readImage_writeImage hm hx hy

/-- The output pixels of a spatial filter whose second phase copies (R153). -/
theorem outputImage_stagedEffect_copy (hm : MemoryWf s.mem) (hs : MemoryWf s.scratch) {x y : Nat}
    (hx : x < s.job.width) (hy : y < s.job.height) :
    readImage (stagedEffect phase1 (fun img => img) s).mem s.job.outBase s.job.width x y
      = phase1 (inputImage s) x y := by
  have h₁ : readImage (stagedEffect phase1 (fun img => img) s).mem s.job.outBase s.job.width x y
      = scratchImage (fillScratch phase1 s) x y := readImage_writeImage (m := s.mem) hm hx hy
  rw [h₁, scratchImage_fillScratch hs hx hy]

/-- The output pixels of a spatial filter: phase 2 on the scratch image. -/
theorem outputImage_stagedEffect (hm : MemoryWf s.mem) {x y : Nat} (hx : x < s.job.width) (hy : y < s.job.height) :
    readImage (stagedEffect phase1 phase2 s).mem s.job.outBase s.job.width x y
      = phase2 (scratchImage (fillScratch phase1 s)) x y :=
  readImage_writeImage (m := s.mem) hm hx hy

/-- A pointwise filter writes only the output range. -/
theorem pointwiseEffect_outside (hm : MemoryWf s.mem) : OutsideOutput s (pointwiseEffect f s).mem :=
  fun _ ha => readByte_writeImage_outside hm ha

/-- A spatial filter writes only the output range of buffer memory. -/
theorem stagedEffect_outside (hm : MemoryWf s.mem) : OutsideOutput s (stagedEffect phase1 phase2 s).mem :=
  fun _ ha => readByte_writeImage_outside (m := s.mem) hm ha

/-- A spatial filter writes only the job's bytes of the scratch RAM. -/
theorem stagedEffect_scratch (hs : MemoryWf s.scratch) : BeyondScratch s (stagedEffect phase1 phase2 s).scratch :=
  fun _ ha => readByte_writeImage_outside (m := s.scratch) hs (by rw [jobBytes] at ha; omega)

/-- A stalled or abandoned job writes only its output range. -/
theorem scrambleOutput_outside (hm : MemoryWf s.mem) : OutsideOutput s (scrambleOutput s).mem := fun a ha => by
  show readByte (writeRun _ _ _ _) a = _
  rw [readByte_writeRun hm, if_neg ha]

/-- Every byte of the output range of a stalled or abandoned job is a free value. -/
theorem scrambleOutput_inside (hm : MemoryWf s.mem) {a : Nat}
    (ha : s.job.outBase ≤ a ∧ a < s.job.outBase + jobBytes s.job) :
    readByte (scrambleOutput s).mem a = Config.freeByte s.freeCount a := by
  show readByte (writeRun _ _ _ _) a = _
  rw [readByte_writeRun hm, if_pos ha, show s.job.outBase + (a - s.job.outBase) = a by omega]

end Sys2Proof.Machine
end

