-- ==== Sys2Proof/Laws/Kernel.lean ====
section
/-! SUPPORT. The laws of the kernel generator: the precision it works at decides every rounding, and every kernel it
gives has the properties P1 to P3 of R113. -/

namespace Sys2Proof.Machine

/-- The precision the generator works at decides the rounding of every coefficient (R112: no tie). -/
theorem kqDecided_kqPrecision (r : Nat) {s : Nat} (hs : 1 ≤ s) : kqDecided (kqPrecision r s) r s = true := by
  unfold kqPrecision
  split
  · assumption
  · exact Nat.find_spec (exists_kqDecided r hs)

/-- Either end of the enclosure gives the outer coefficients of `KQ`. -/
theorem kq_eq_of_high (r : Nat) {s : Nat} (hs : 1 ≤ s) :
    kq r s = withCentre (outerTaps (kqPrecision r s) (baseHigh (kqPrecision r s) s) (baseLow (kqPrecision r s) s) r) := by
  have h := kqDecided_kqPrecision r hs
  rw [kqDecided, beq_iff_eq] at h
  rw [kq, kqAt, h]

theorem kq_length (r s : Nat) : (kq r s).length = r + 1 := by simp [kq, kqAt, withCentre, outerTaps_length]

theorem kq_getD_succ {r i : Nat} (s : Nat) (hi : i < r) :
    (kq r s).getD (i + 1) 0 = roundTap (tapOf (kqPrecision r s) (baseLow (kqPrecision r s) s) r (i + 1))
      (tapSum (kqPrecision r s) (baseHigh (kqPrecision r s) s) r) := by
  rw [kq, kqAt, withCentre, List.getD_cons_succ, outerTaps_getD hi]

theorem mem_le_sum {l : List Nat} {x : Nat} (h : x ∈ l) : x ≤ l.sum := List.single_le_sum (by simp) x h

/-- The outer coefficients of a kernel take at most the whole scale, so the centre tap is no truncated difference. -/
theorem kq_tail_sum_le {r s : Nat} (hr : r ≤ 15) (hs : 1 ≤ s) : 2 * (kq r s).tail.sum ≤ 65536 :=
  outerTaps_sum_le (baseLow_le_baseHigh s hs) (baseHigh_le s hs) hr

/-- P1 of R113. -/
theorem kq_le {r s : Nat} (hr : r ≤ 15) (hs : 1 ≤ s) {x : Nat} (hx : x ∈ kq r s) : x ≤ 65536 := by
  have h := kq_tail_sum_le hr hs
  rcases List.mem_cons.mp hx with rfl | hx
  · omega
  · have := mem_le_sum hx
    rw [kq, kqAt, withCentre, List.tail_cons] at h
    omega

/-- P2 of R113. -/
theorem kq_sum {r s : Nat} (hr : r ≤ 15) (hs : 1 ≤ s) : (kq r s).headD 0 + 2 * (kq r s).tail.sum = 65536 := by
  have h := kq_tail_sum_le hr hs
  rw [kq, kqAt, withCentre, List.tail_cons] at h
  rw [kq, kqAt, withCentre, List.headD_cons, List.tail_cons]
  omega

/-- P3 of R113. -/
theorem kq_pairwise (r : Nat) {s : Nat} (hs : 1 ≤ s) : (kq r s).tail.Pairwise (· ≥ ·) :=
  outerTaps_pairwise (le_trans (baseLow_le_baseHigh s hs) (baseHigh_le s hs))

/-- A coefficient of `KCOEF` is the generated one, and 0 beyond the radius (R38, R115). -/
theorem coefficient_kernelFile {r s : Nat} (hr : r ≤ 15) (hs : 1 ≤ s) (i : Nat) :
    coefficient (kernelFile r s) i = (kq r s).getD i 0 := by
  unfold coefficient kernelFile
  by_cases hi : i < 16
  · rw [Vector.getElem?_eq_getElem hi, Option.getD_some, Vector.getElem_ofFn, BitVec.toNat_ofNat]
    refine Nat.mod_eq_of_lt (lt_of_le_of_lt ?_ (by norm_num : 65536 < 2 ^ 17))
    by_cases hl : i < (kq r s).length
    · rw [List.getD_eq_getElem _ _ hl]; exact kq_le hr hs (List.getElem_mem hl)
    · rw [List.getD_eq_default _ _ (Nat.le_of_not_lt hl)]; omega
  · rw [Vector.getElem?_eq_none (by omega), List.getD_eq_default _ _ (by rw [kq_length]; omega)]; rfl

end Sys2Proof.Machine
end

