-- ==== Sys2Proof/Laws/OilPaint.lean ====
section
/-! SUPPORT. The laws of the oil-paint quantizer's bucket index and winner. -/

namespace Sys2Proof.Machine

/-- A bucket index is below the bucket count (R161). -/
theorem bucketOf_lt {buckets : Nat} (hb : 1 ≤ buckets) (p : Pixel) : bucketOf buckets p < buckets := by
  unfold bucketOf intensity
  have := p.r.isLt
  have := p.g.isLt
  have := p.b.isLt
  rw [Nat.div_lt_iff_lt_mul (by norm_num), Nat.mul_comm]
  exact Nat.mul_lt_mul_of_pos_left (by omega) (by omega)

/-- The winner is the smallest index whose count is the largest (R163). -/
theorem bestBucket_spec (count : Nat → Nat) {n : Nat} (hn : 1 ≤ n) :
    bestBucket count n < n ∧ (∀ b, b < n → count b ≤ count (bestBucket count n)) ∧
      ∀ b, b < bestBucket count n → count b < count (bestBucket count n) := by
  induction n, hn using Nat.le_induction with
  | base => simp [bestBucket]
  | succ n hn ih =>
    obtain ⟨h₁, h₂, h₃⟩ := ih
    simp only [bestBucket]
    split
    · next h =>
      refine ⟨by omega, fun b hb => ?_, fun b hb => lt_of_le_of_lt (h₂ b hb) h⟩
      rcases Nat.lt_succ_iff_lt_or_eq.mp hb with hlt | rfl
      · exact (h₂ b hlt).trans h.le
      · exact le_rfl
    · next h =>
      refine ⟨by omega, fun b hb => ?_, h₃⟩
      rcases Nat.lt_succ_iff_lt_or_eq.mp hb with hlt | rfl
      · exact h₂ b hlt
      · omega

end Sys2Proof.Machine
end

