-- ==== Sys2Proof/Laws/PerInstr.lean ====
section
/-! SUPPORT. The family `EncodePort`: every transaction the encoder writes is one the register port accepts, 32 bits
wide and at an aligned offset (`20_memory.md` R57, `30_encoding.md` R70). -/

namespace Sys2Proof.Laws.EncodePort

/-- Every offset the encoder writes is a multiple of 4 (R71). -/
theorem offsetOfReg_aligned (reg : Reg) : (offsetOfReg reg).extractLsb' 0 2 = 0#2 := by
  unfold offsetOfReg
  generalize indexOfReg reg = index
  revert index
  decide +kernel

/-- When an instruction is encoded as a transaction, the transaction is 32 bits wide and aligned. -/
def Statement (i : Instr) : Prop :=
  ∀ t, encode i = .port t → t.width = 32 ∧ t.offset.extractLsb' 0 2 = 0#2

theorem wr (reg : Reg) (data : Word) : Statement (.wr reg data) := by
  rintro t h; cases h; exact ⟨rfl, offsetOfReg_aligned _⟩

theorem rd (reg : Reg) : Statement (.rd reg) := by rintro t h; cases h; exact ⟨rfl, offsetOfReg_aligned _⟩

theorem commit : Statement .commit := by rintro t h; cases h; exact ⟨rfl, offsetOfReg_aligned _⟩

theorem process : Statement .process := by rintro t h; cases h; exact ⟨rfl, offsetOfReg_aligned _⟩

theorem clear : Statement .clear := by rintro t h; cases h; exact ⟨rfl, offsetOfReg_aligned _⟩

theorem cmdReserved (word : Word) : Statement (.cmdReserved word) := by
  rintro t h; cases h; exact ⟨rfl, offsetOfReg_aligned _⟩

theorem none : Statement .none := by rintro t h; cases h

theorem invert : Statement .invert := by rintro t h; cases h

theorem grayscale : Statement .grayscale := by rintro t h; cases h

theorem sepia : Statement .sepia := by rintro t h; cases h

theorem brightness : Statement .brightness := by rintro t h; cases h

theorem blur : Statement .blur := by rintro t h; cases h

theorem edge : Statement .edge := by rintro t h; cases h

theorem oilpaint : Statement .oilpaint := by rintro t h; cases h

theorem filterUnsupported (code : Word) : Statement (.filterUnsupported code) := by rintro t h; cases h

end Sys2Proof.Laws.EncodePort
end

