-- ==== Sys2Proof/Laws/Step.lean ====
section
/-! SUPPORT. What a step can do, said once: the inversion of `step`, of `exec` on the filter operations, and of the
register window and command meanings. -/

namespace Sys2Proof.Machine

variable {s t : State}

/-- What the engine's turn runs is a filter operation (R179). -/
theorem isFilterOp_decodeSelector (code : Word) : isFilterOp (decodeSelector code) = true := by
  unfold decodeSelector; split <;> rfl

theorem engineAction_eq (s : State) : engineAction s = .run (decodeSelector s.job.filter) := rfl

/-- The engine's spatial operations are those of the selectors that use the scratch RAM (R76). -/
theorem isSpatialOp_decodeSelector (code : Word) : isSpatialOp (decodeSelector code) = usesScratch code := by
  have e : ∀ k : Nat, k < 2 ^ 32 → (code == BitVec.ofNat 32 k) = decide (code.toNat = k) := fun k hk => by
    rw [Bool.eq_iff_iff, beq_iff_eq, decide_eq_true_eq]
    constructor
    · rintro rfl; rw [BitVec.toNat_ofNat, Nat.mod_eq_of_lt hk]
    · intro h; exact BitVec.eq_of_toNat_eq (by rw [h, BitVec.toNat_ofNat, Nat.mod_eq_of_lt hk])
  unfold usesScratch
  rw [show (5#32 : Word) = BitVec.ofNat 32 5 from rfl, show (6#32 : Word) = BitVec.ofNat 32 6 from rfl,
    show (7#32 : Word) = BitVec.ofNat 32 7 from rfl, e 5 (by norm_num), e 6 (by norm_num), e 7 (by norm_num)]
  unfold decodeSelector
  split <;> simp_all [isSpatialOp]

/-- The host's next event, when its action runs an instruction, is a transaction or a turn of the engine. -/
theorem nextAction_run {i : Instr} (h : nextAction s = .run i) :
    (∃ tr rest, s.inbox = .port tr :: rest ∧ decode (.port tr) = .ok i) ∨ i = decodeSelector s.job.filter := by
  unfold nextAction at h
  split at h
  · exact .inr (by injection (engineAction_eq s).symm.trans h with h; exact h.symm)
  · exact .inr (by injection (engineAction_eq s).symm.trans h with h; exact h.symm)
  · next tr rest hs =>
    refine .inl ⟨tr, rest, hs, ?_⟩
    unfold actionOfCode at h
    split at h
    · next hd => rw [hd]; injection h with h; rw [h]
    · cases h
  all_goals cases h

/-- A transaction never decodes to a filter operation (R83). -/
theorem isFilterOp_of_port {tr : Transaction} {i : Instr} (h : decode (.port tr) = .ok i) : isFilterOp i = false := by
  simp only [decode, decodeTransaction] at h
  split at h
  · cases h
  · split at h
    · cases h
    · split at h
      · cases h; rfl
      · cases h; unfold decodeCommand; repeat' split
        all_goals rfl
      · cases h; rfl

/-- A transaction never decodes to a `WR` of the command register (R83). -/
theorem decode_port_ne_wr_cmd {tr : Transaction} {d : Word} : decode (.port tr) ≠ .ok (.wr .cmd d) := by
  intro h
  simp only [decode, decodeTransaction] at h
  split at h
  · cases h
  · split at h
    · cases h
    · split at h
      · cases h
      · unfold decodeCommand at h
        repeat' split at h
        all_goals cases h
      · next hne => injection h with h; injection h with h₁ h₂; exact hne h₁

/-- Every step that answers a next state: the reset input, an error of the memory port, a host access to buffer memory, or
an instruction. -/
theorem step_next (h : step s = .next t) :
    (nextAction s = .reset ∧ t = hardwareReset (takeEvent s)) ∨
      (∃ kind a, nextAction s = .memoryError kind a ∧ t = portError kind a (takeEvent s)) ∨
      (∃ a, nextAction s = .load a ∧ t = { takeEvent s with loadData := readByte s.mem a.toNat }) ∨
      (∃ a v, nextAction s = .store a v ∧
        ¬ (s.status.busy = true ∧ (inInput s.job a.toNat = true ∨ inOutput s.job a.toNat = true)) ∧
        t = { takeEvent s with mem := writeByte s.mem a.toNat v }) ∨
      ∃ i, nextAction s = .run i ∧ exec i (takeEvent s) = .next t := by
  unfold step at h
  split at h
  · next i hi => exact .inr (.inr (.inr (.inr ⟨i, hi, h⟩)))
  · cases h
  · next a ha =>
    refine .inr (.inr (.inl ⟨a, ha, ?_⟩))
    unfold hostLoad at h
    repeat' split at h
    all_goals first | (cases h; done) | (injection h with h; exact h.symm)
  · next a v ha =>
    refine .inr (.inr (.inr (.inl ⟨a, v, ha, ?_⟩)))
    unfold hostStore at h
    split at h
    · cases h
    · split at h
      · cases h
      · next hn => injection h with h; exact ⟨hn, h.symm⟩
  · next kind a he => injection h with h; exact .inr (.inl ⟨kind, a, he, h.symm⟩)
  · next hr => injection h with h; exact .inl ⟨hr, h.symm⟩

/-- What the memory effect of a filter operation changes: buffer memory within the output range and, for a spatial
operation, the job's bytes of the scratch RAM. -/
structure EffectFrame (spatial : Bool) (s u : State) : Prop where
  fields : u = { s with mem := u.mem, scratch := u.scratch }
  mem_wf : MemoryWf s.mem → MemoryWf u.mem
  outside : MemoryWf s.mem → OutsideOutput s u.mem
  below : ∀ bound, MemoryBelow bound s.mem → s.job.outBase + jobBytes s.job ≤ bound → MemoryBelow bound u.mem
  scratch_wf : MemoryWf s.scratch → MemoryWf u.scratch
  beyond : MemoryWf s.scratch → BeyondScratch s u.scratch
  scratch_below : ∀ bound, MemoryBelow bound s.scratch → (spatial = true → jobBytes s.job ≤ bound) →
    MemoryBelow bound u.scratch

theorem effectFrame_pointwise (f : Pixel → Pixel) (s : State) : EffectFrame false s (pointwiseEffect f s) where
  fields := rfl
  mem_wf hm := writeImage_wf hm
  outside hm := pointwiseEffect_outside hm
  below _ hb ho := writeImage_below hb (.inr ho)
  scratch_wf hs := hs
  beyond _ _ _ := rfl
  scratch_below _ hb _ := hb

theorem effectFrame_staged (phase1 phase2 : Image → Image) (s : State) :
    EffectFrame true s (stagedEffect phase1 phase2 s) where
  fields := rfl
  mem_wf hm := writeImage_wf (m := s.mem) hm
  outside hm := stagedEffect_outside hm
  below _ hb ho := writeImage_below (m := s.mem) hb (.inr ho)
  scratch_wf hs := writeImage_wf (m := s.scratch) hs
  beyond hs := stagedEffect_scratch hs
  scratch_below _ hb ho := writeImage_below (m := s.scratch) hb (.inr (by rw [Nat.zero_add]; exact ho rfl))

/-- Every filter operation is `runJob` of some memory effect (R178, R179). -/
theorem exec_filterOp {i : Instr} (h : isFilterOp i = true) :
    ∃ effect : State → State, (∀ s, exec i s = runJob (isSpatialOp i) (completionCode i) effect s) ∧
      ∀ s, EffectFrame (isSpatialOp i) s (effect s) := by
  cases i with
  | none => exact ⟨pointwiseEffect nonePixel, fun _ => rfl, effectFrame_pointwise _⟩
  | invert => exact ⟨pointwiseEffect invertPixel, fun _ => rfl, effectFrame_pointwise _⟩
  | grayscale => exact ⟨pointwiseEffect grayscalePixel, fun _ => rfl, effectFrame_pointwise _⟩
  | sepia => exact ⟨pointwiseEffect sepiaPixel, fun _ => rfl, effectFrame_pointwise _⟩
  | brightness =>
    exact ⟨fun s => pointwiseEffect (brightnessPixel s.job.num s.job.den) s, fun _ => runJob_congr rfl,
      fun s => effectFrame_pointwise _ s⟩
  | blur =>
    exact ⟨fun s => stagedEffect (blurRows s.job.kernel s.job.blurRadius s.job.width)
      (blurColumns s.job.kernel s.job.blurRadius s.job.height) s, fun _ => runJob_congr rfl, fun s => effectFrame_staged _ _ s⟩
  | edge =>
    exact ⟨fun s => stagedEffect (sobelImage s.job.width s.job.height) (fun img => img) s, fun _ => runJob_congr rfl,
      fun s => effectFrame_staged _ _ s⟩
  | oilpaint =>
    exact ⟨fun s => stagedEffect (oilImage s.job.width s.job.height s.job.oilRadius s.job.buckets) (fun img => img) s,
      fun _ => runJob_congr rfl, fun s => effectFrame_staged _ _ s⟩
  | filterUnsupported code => exact ⟨pointwiseEffect nonePixel, fun _ => rfl, effectFrame_pointwise _⟩
  | _ => cases h

/-- What a filter operation answers when it goes on: nothing without a job or with a stuck one; else the completed job,
or the stall of a memory-port error. -/
theorem exec_filterOp_next {i : Instr} (hi : isFilterOp i = true) (h : exec i s = .next t) :
    ((s.status.busy = false ∨ s.stuck = true) ∧ t = s) ∨
      (JobReady (isSpatialOp i) s ∧ ∃ u, EffectFrame (isSpatialOp i) s u ∧
        t = { s with mem := u.mem, scratch := u.scratch, status := completedStatus (completionCode i) s }) ∨
      (s.status.busy = true ∧ s.stuck = false ∧ s.job.outBase + jobBytes s.job ≤ Config.addressSpace ∧
        t = stallJob s) := by
  obtain ⟨effect, he, hf⟩ := exec_filterOp hi
  rw [he] at h
  rcases runJob_next h with h | ⟨hr, ht⟩ | h
  · exact .inl h
  · refine .inr (.inl ⟨hr, effect s, hf s, ?_⟩)
    rw [ht, completeJob, (hf s).fields]; rfl
  · exact .inr (.inr h)

/-- A stall keeps every field but buffer memory, the mark of a stuck job and the model's counter. -/
theorem stallJob_fields (s : State) :
    stallJob s = { s with mem := (scrambleOutput s).mem, stuck := true, freeCount := s.freeCount + 1 } := rfl

/-- An error of the memory port stalls a running job that makes the access, and is nothing else. -/
theorem portError_cases (kind : AccessKind) (a : BitVec 32) (s : State) :
    (s.status.busy = true ∧ s.stuck = false ∧ jobAccesses s.job kind a.toNat = true ∧
      portError kind a s = stallJob s) ∨ portError kind a s = s := by
  unfold portError
  split
  · next h => exact .inl ⟨h.1, h.2.1, h.2.2, rfl⟩
  · exact .inr rfl

/-- What an instruction of the register port answers. -/
theorem exec_port_next {i : Instr} (hi : isFilterOp i = false) (h : exec i s = .next t) :
    (∃ reg d, i = .wr reg d ∧ reg ≠ .cmd ∧ t = writeReg reg d s) ∨
      (∃ d, i = .wr .cmd d ∧ t = commandWrite d s) ∨
      (∃ reg, i = .rd reg ∧ t = { s with portData := readReg s reg }) ∨
      (i = .commit ∧ t = commitCommand s) ∨ (i = .process ∧ t = processCommand s) ∨
      (i = .clear ∧ t = clearCommand s) ∨ ∃ w, i = .cmdReserved w ∧ t = reservedCommand s := by
  cases i with
  | wr reg d =>
    simp only [exec, execWr] at h
    split at h
    · next hc => subst hc; injection h with h; exact .inr (.inl ⟨d, rfl, h.symm⟩)
    · next hc => injection h with h; exact .inl ⟨reg, d, rfl, hc, h.symm⟩
  | rd reg => injection h with h; exact .inr (.inr (.inl ⟨reg, rfl, h.symm⟩))
  | commit => injection h with h; exact .inr (.inr (.inr (.inl ⟨rfl, h.symm⟩)))
  | process => injection h with h; exact .inr (.inr (.inr (.inr (.inl ⟨rfl, h.symm⟩))))
  | clear => injection h with h; exact .inr (.inr (.inr (.inr (.inr (.inl ⟨rfl, h.symm⟩)))))
  | cmdReserved w => injection h with h; exact .inr (.inr (.inr (.inr (.inr (.inr ⟨w, rfl, h.symm⟩)))))
  | _ => cases hi

/-- A register write keeps every field but the registers the host may write. -/
theorem writeReg_fields (reg : Reg) (d : Word) (s : State) :
    ∃ f w h ib il ob ol st, writeReg reg d s = { s with
      filter := f, width := w, height := h, inBase := ib, inLen := il, outBase := ob, outLen := ol, staged := st } := by
  cases reg <;> exact ⟨_, _, _, _, _, _, _, _, rfl⟩

end Sys2Proof.Machine
end

