-- ==== Sys2Proof/Machine/Script.lean ====
section
/-! DEFINITION. The host-script lines and pseudo-instructions of `30_encoding.md` R85 and R86, as the events the host
puts in the inbox. -/

namespace Sys2Proof.Machine

/-- `wr NAME, value` (R85). -/
def scriptWr (reg : Reg) (value : Word) : Event := .port (writeOf reg value)

/-- `rd NAME` (R85). -/
def scriptRd (reg : Reg) : Event := .port (readOf reg)

/-- `cmd COMMIT`, `cmd PROCESS`, `cmd CLEAR`: the command words 1, 2 and 3 (R86). -/
def scriptCmd (word : Word) : Event := scriptWr .cmd word

/-- `setfilter M`, by the code of M (R86). -/
def scriptSetFilter (code : Word) : List Event := [scriptWr .filter code]

/-- `setparams n, d, br, bs, or, b` (R86). -/
def scriptSetParams (ps : Params) : List Event :=
  [scriptWr (.staged .brightNum) ps.brightNum, scriptWr (.staged .brightDen) ps.brightDen,
    scriptWr (.staged .blurRadius) ps.blurRadius, scriptWr (.staged .blurSigma) ps.blurSigma,
    scriptWr (.staged .oilRadius) ps.oilRadius, scriptWr (.staged .oilBuckets) ps.oilBuckets, scriptCmd 1#32]

/-- `process W, H, ib, il, ob, ol` (R86). -/
def scriptProcess (w h ib il ob ol : Word) : List Event :=
  [scriptWr .width w, scriptWr .height h, scriptWr .inBase ib, scriptWr .inLen il, scriptWr .outBase ob,
    scriptWr .outLen ol, scriptCmd 2#32]

/-- `wait`, for a host that reads `STATUS` `polls` times: the loop itself is the host's (R86). -/
def scriptWait (polls : Nat) : List Event := List.replicate polls (scriptRd .status)

end Sys2Proof.Machine
end

