-- ==== Sys2Proof/Tests/Slice0.lean ====
section
/-! SUPPORT. The model's own tests. Expected values are worked examples and vectors of `95_test_vectors.md` and of the
rules named, or words written out from the spec's encodings. The last part shows, for each statement with hypotheses,
a concrete state and operands that meet all of them. -/

namespace Sys2Proof.Machine.Tests

/-! ## WellFormed refuses -/

theorem test_wellFormed_wr_cmd_refused : (Instr.wr .cmd 5#32).wellFormed = false := by decide
theorem test_wellFormed_wr_listed_index_refused : (Instr.wr (.reserved 3#10) 0#32).wellFormed = false := by decide
theorem test_wellFormed_rd_listed_index_refused : (Instr.rd (.reserved 79#10)).wellFormed = false := by decide
theorem test_wellFormed_cmdReserved_defined_refused :
    (Instr.cmdReserved 1#32).wellFormed = false ∧ (Instr.cmdReserved 2#32).wellFormed = false ∧
      (Instr.cmdReserved 3#32).wellFormed = false := by decide
theorem test_wellFormed_filterUnsupported_supported_refused :
    (Instr.filterUnsupported 7#32).wellFormed = false := by decide
theorem test_wellFormed_accepts :
    (Instr.wr .status 1#32).wellFormed = true ∧ (Instr.rd (.reserved 80#10)).wellFormed = true ∧
      (Instr.cmdReserved 0#32).wellFormed = true ∧ (Instr.filterUnsupported 8#32).wellFormed = true := by decide

/-! ## Decoding: one word for each constructor, from the tables of R21, R74, R76 and R77 -/

/-- `offset` 0000 0100 1100 is P_BLUR_SIGMA. -/
theorem test_decode_wr : decode (.port { kind := .write 0x8000#32, offset := 0b000001001100#12, width := 32 })
    = .ok (.wr (.staged .blurSigma) 0x8000#32) := by decide
/-- `offset` 0001 0000 0100 is KCOEF[1] (R71). -/
theorem test_decode_rd : decode (.port { kind := .read, offset := 0b000100000100#12, width := 32 })
    = .ok (.rd (.kcoef 1)) := by decide
theorem test_decode_commit : decode (.port { kind := .write 1#32, offset := 0b000000000100#12, width := 32 })
    = .ok .commit := by decide
theorem test_decode_process : decode (.port { kind := .write 2#32, offset := 0b000000000100#12, width := 32 })
    = .ok .process := by decide
theorem test_decode_clear : decode (.port { kind := .write 3#32, offset := 0b000000000100#12, width := 32 })
    = .ok .clear := by decide
/-- OP = 2 with a bit of MBZ set (R181). -/
theorem test_decode_cmdReserved : decode (.port { kind := .write 0x12#32, offset := 0b000000000100#12, width := 32 })
    = .ok (.cmdReserved 0x12#32) := by decide
theorem test_decode_none : decode (.selector 0b000#32) = .ok .none := by decide
theorem test_decode_invert : decode (.selector 0b001#32) = .ok .invert := by decide
theorem test_decode_grayscale : decode (.selector 0b010#32) = .ok .grayscale := by decide
theorem test_decode_sepia : decode (.selector 0b011#32) = .ok .sepia := by decide
theorem test_decode_brightness : decode (.selector 0b100#32) = .ok .brightness := by decide
theorem test_decode_blur : decode (.selector 0b101#32) = .ok .blur := by decide
theorem test_decode_edge : decode (.selector 0b110#32) = .ok .edge := by decide
theorem test_decode_oilpaint : decode (.selector 0b111#32) = .ok .oilpaint := by decide
/-- A selector whose low bits are those of INVERT (R76: all 32 bits are compared). -/
theorem test_decode_filterUnsupported : decode (.selector 0x80000001#32) = .ok (.filterUnsupported 0x80000001#32) := by
  decide

/-- The register of an aligned 32-bit read. -/
def readAt (offset : BitVec 12) : Option Reg :=
  match decode (.port { kind := .read, offset := offset, width := 32 }) with
  | .ok (.rd reg) => some reg
  | _ => none

/-- The ends of the blocks of R21, and the reserved offsets beside them (R42). -/
theorem test_decode_block_ends :
    readAt 0x024#12 = some .outLen ∧ readAt 0x028#12 = some (.reserved 10#10) ∧
    readAt 0x03C#12 = some (.reserved 15#10) ∧ readAt 0x040#12 = some (.staged .brightNum) ∧
    readAt 0x054#12 = some (.staged .oilBuckets) ∧ readAt 0x058#12 = some (.reserved 22#10) ∧
    readAt 0x07C#12 = some (.reserved 31#10) ∧ readAt 0x080#12 = some (.active .brightNum) ∧
    readAt 0x094#12 = some (.active .oilBuckets) ∧ readAt 0x098#12 = some (.reserved 38#10) ∧
    readAt 0x0FC#12 = some (.reserved 63#10) ∧ readAt 0x100#12 = some (.kcoef 0) ∧
    readAt 0x13C#12 = some (.kcoef 15) ∧ readAt 0x140#12 = some (.reserved 80#10) ∧
    readAt 0xFFC#12 = some (.reserved 1023#10) := by decide
/-- R57. -/
theorem test_decode_refuses_narrow : decode (.port { kind := .read, offset := 0x008#12, width := 16 })
    = .error .width := by decide
theorem test_decode_refuses_unaligned : decode (.port { kind := .read, offset := 0x00A#12, width := 32 })
    = .error .alignment := by decide
/-- The words of the opcode table, as assumption 2 places them. -/
theorem test_decodeTableWord : decodeTableWord 32 2 = some .process ∧ decodeTableWord 32 5 = some .blur ∧
    decodeTableWord 32 9 = some (.filterUnsupported 9#32) ∧ decodeTableWord 64 (2 ^ 32) = none := by decide

/-! ## One step of each instruction -/

/-- The machine after reset on a platform without errors, with a scratch RAM of 64 bytes. -/
def board : State := { State.reset with scratchCap := 64, portErrors := [] }

/-- A state with an access of the host as its next event. -/
def next (e : Event) (s : State) : State := { s with inbox := [e] }

/-- A state in which a job of `w` by `h` pixels runs from 0x20 to 0x80. -/
def running (filter : Word) (w h : Nat) (bytes : List Byte) (s : State) : State :=
  { s with
    mem := writeRun [] 0x20 (fun k => bytes.getD k 0) (w * h * 4)
    status := { s.status with busy := true }
    job := { filter := filter, width := w, height := h, inBase := 0x20, outBase := 0x80, num := 6, den := 5,
             blurRadius := 1, kernel := KernelFile.reset, oilRadius := 1, buckets := 20 } }

/-- A Boolean of the next state, false at a fault or a refusal. -/
def after (r : Result) (P : State → Bool) : Bool :=
  match r with
  | .next t => P t
  | _ => false

/-- The bytes of buffer memory from an address on. -/
def bytesAt (s : State) (base n : Nat) : List Nat := (List.range n).map fun k => (readByte s.mem (base + k)).toNat

/-- The word of `STATUS`. -/
def statusOf (s : State) : Word := statusWord s.status

/-- V: an unsupported selector is stored as written (R29). -/
theorem test_wr_filter : after (step (next (.port (writeOf .filter 0xFFFFFFFF#32)) board))
    (fun t => t.filter == 0xFFFFFFFF#32 && statusOf t == 0#32) = true := by decide
/-- A write to a read-only register is ignored (R24). -/
theorem test_wr_active_ignored : after (step (next (.port (writeOf (.active .oilBuckets) 7#32)) board))
    (fun t => t.active.oilBuckets == 20#32 && t.staged.oilBuckets == 20#32) = true := by decide
/-- After reset `rd ID` gives 0x5746_0007 (R171). -/
theorem test_rd_id : after (step (next (.port (readOf .id)) board)) (fun t => t.portData == 0x57460007#32) = true := by
  decide
/-- After reset `rd KCOEF[1]` gives 0x0000_4629 (R171). -/
theorem test_rd_kcoef : after (step (next (.port (readOf (.kcoef 1))) board))
    (fun t => t.portData == 0x4629#32) = true := by decide
/-- P2: sigma code 0x8000 gives the kernel 51576, 6980. -/
theorem test_commit_kernel :
    after (step (next (.port (writeOf .cmd 1#32)) { board with staged := { Params.reset with blurSigma := 0x8000#32 } }))
      (fun t => t.active.blurSigma == 0x8000#32 && coefficient t.kcoef 0 == 51576 && coefficient t.kcoef 1 == 6980
        && coefficient t.kcoef 2 == 0 && statusOf t == 0#32) = true := by decide +kernel
/-- K9: 257 buckets are rejected and the active set stays. -/
theorem test_commit_rejected :
    after (step (next (.port (writeOf .cmd 1#32)) { board with staged := { Params.reset with oilBuckets := 257#32 } }))
      (fun t => t.active == Params.reset && statusOf t == 0x100#32) = true := by decide
/-- P2: `PROCESS` straight after reset is INVALID_GEOMETRY. -/
theorem test_process_after_reset : after (step (next (.port (writeOf .cmd 2#32)) board))
    (fun t => statusOf t == 0x12#32) = true := by decide
/-- R207's example: overlap is reported before capacity. -/
theorem test_process_overlap_before_capacity :
    after (step (next (.port (writeOf .cmd 2#32)) { board with
      scratchCap := 4, filter := 5#32, width := 2#32, height := 1#32, inBase := 0x100#32, inLen := 8#32
      outBase := 0x104#32, outLen := 8#32 })) (fun t => statusOf t == 0x22#32) = true := by decide
/-- R180: `STATUS` 0x10E becomes 0. -/
theorem test_clear : after (step (next (.port (writeOf .cmd 3#32)) { board with
      status := { busy := false, done := true, ovr := true, badcmd := true, perr := .ok, cerr := .invalidParameter } }))
    (fun t => statusOf t == 0#32) = true := by decide
/-- P2: `wr CMD, 7` at `STATUS` 0x12 gives 0x1A. -/
theorem test_cmdReserved : after (step (next (.port (writeOf .cmd 7#32)) { board with
      status := { Status.reset with done := true, perr := .invalidGeometry } }))
    (fun t => statusOf t == 0x1A#32) = true := by decide
theorem test_none : after (step (running 0#32 1 1 [10, 20, 30, 40] board))
    (fun t => bytesAt t 0x80 4 == [10, 20, 30, 40] && statusOf t == 2#32) = true := by decide +kernel
theorem test_invert : after (step (running 1#32 1 1 [0, 100, 255, 7] board))
    (fun t => bytesAt t 0x80 4 == [255, 155, 0, 7] && bytesAt t 0x20 4 == [0, 100, 255, 7]) = true := by
  decide +kernel
/-- The scenario of 95_test_vectors.md 1.1, one of its pixels, and the half that rounds up. -/
theorem test_grayscale : after (step (running 2#32 2 1 [0, 0, 255, 255, 2, 0, 43, 2] board))
    (fun t => bytesAt t 0x80 8 == [29, 29, 29, 255, 6, 6, 6, 2]) = true := by decide +kernel
theorem test_sepia : after (step (running 3#32 2 1 [50, 0, 0, 9, 255, 255, 255, 255] board))
    (fun t => bytesAt t 0x80 8 == [20, 17, 14, 9, 255, 255, 239, 255]) = true := by decide +kernel
theorem test_brightness : after (step (running 4#32 2 1 [100, 200, 250, 9, 3, 5, 0, 0] board))
    (fun t => bytesAt t 0x80 8 == [120, 240, 255, 9, 4, 6, 0, 0]) = true := by decide +kernel
/-- B1. -/
theorem test_blur : after (step (running 5#32 3 1 [0, 0, 0, 255, 255, 0, 0, 255, 0, 0, 0, 255] board))
    (fun t => bytesAt t 0x80 12 == [70, 0, 0, 255, 115, 0, 0, 255, 70, 0, 0, 255]) = true := by decide +kernel
/-- A 3 by 3 image with one value in column 0 and another in columns 1 and 2. -/
def stepImage (a b : Byte) : List Byte :=
  [a, 0, 0, 255, b, 0, 0, 255, b, 0, 0, 255, a, 0, 0, 255, b, 0, 0, 255, b, 0, 0, 255,
   a, 0, 0, 255, b, 0, 0, 255, b, 0, 0, 255]
/-- S1: the interior pixel saturates and its neighbours at the border are copied. -/
theorem test_edge : after (step (running 6#32 3 3 (stepImage 0 255) board))
    (fun t => bytesAt t 0x90 4 == [255, 0, 0, 255] && bytesAt t 0x8C 4 == [0, 0, 0, 255]) = true := by decide +kernel
/-- O2: the tie goes to the lowest bucket. -/
theorem test_oilpaint : after (step (running 7#32 3 1 [0, 0, 0, 9, 200, 200, 200, 9, 100, 100, 100, 9] board))
    (fun t => bytesAt t 0x80 12 == [0, 0, 0, 9, 0, 0, 0, 9, 100, 100, 100, 9]) = true := by decide +kernel
/-- P4: an unsupported selector copies and completes with `STATUS` 0x32. -/
theorem test_filterUnsupported : after (step (running 9#32 1 2 [1, 2, 3, 4, 5, 6, 7, 8] board))
    (fun t => bytesAt t 0x80 8 == [1, 2, 3, 4, 5, 6, 7, 8] && statusOf t == 0x32#32) = true := by decide +kernel
/-- R57 at the step. -/
theorem test_step_refuses_narrow :
    step (next (.port { kind := .read, offset := 0x008#12, width := 8 }) board) = .refused (.portProtocol .width) := by
  rfl
/-- The byte offset and the word of each write of an event list. -/
def writesOf (es : List Event) : List (Nat × Nat) :=
  es.filterMap fun e => match e with
    | .port { kind := .write d, offset := o, width := _ } => some (o.toNat, d.toNat)
    | _ => none
/-- The lines of program P1 from `setfilter` to `cmd PROCESS`, with their offsets as the listing gives them. -/
theorem test_script_lines : writesOf (scriptSetFilter 2#32 ++ scriptProcess 2#32 2#32 0x1000#32 16#32 0x2000#32 16#32)
    = [(0x00C, 2), (0x010, 2), (0x014, 2), (0x018, 0x1000), (0x01C, 16), (0x020, 0x2000), (0x024, 16), (0x004, 2)] := by
  decide
/-- Primitives of 95_test_vectors.md 2.1. -/
theorem test_primitives : (sat 5 2).toNat = 3 ∧ (sat (-1) 2).toNat = 0 ∧ (satK 32768).toNat = 1 ∧
    (satSqrt 12).toNat = 3 ∧ (satSqrt 13).toNat = 4 ∧ (satSqrt 2080800).toNat = 255 := by decide +kernel
/-- The host side of buffer memory: a byte written is the byte read (R61). -/
theorem test_host_store : after (step (next (.store 0x40#32 7#8) board)) (fun t => t.mem == [(0x40, 7#8)]) = true := by
  decide
/-- `withFetchWord` makes the next step run the instruction: a `PROCESS`, and a blur of the empty image. -/
theorem test_withFetchWord :
    after (step (State.reset.withFetchWord 32 2)) (fun t => statusOf t == 0x12#32) = true ∧
    after (step (State.reset.withFetchWord 32 5)) (fun t => statusOf t == 2#32) = true := by decide +kernel

/-! ## Witnesses: states and operands that meet the hypotheses of each statement -/

/-- The job of B2 in a legal machine: a 3 by 3 image with a white centre, from 0x20 to 0x80, its latch as an accepted
`PROCESS` of these values leaves it. -/
def lit : State := running 5#32 3 3 (List.replicate 16 0 ++ [255, 255, 255, 255]) board

/-- A job on a uniform 3 by 3 image. -/
def uniform (filter : Word) : State := running filter 3 3 (List.replicate 36 9) board

theorem jobReady_running (spatial : Bool) (filter : Word) (bytes : List Byte) :
    JobReady spatial (running filter 3 3 bytes board) :=
  ⟨rfl, rfl, by show 0x20 + 3 * 3 * 4 ≤ 2 ^ 32; decide, by show 0x80 + 3 * 3 * 4 ≤ 2 ^ 32; decide,
    fun _ => by show 3 * 3 * 4 ≤ 64; decide, (rangeAnswers_iff _ _ _ _).mpr fun _ _ _ => rfl,
    (rangeAnswers_iff _ _ _ _).mpr fun _ _ _ => rfl⟩

theorem mem_wf_running (filter : Word) (w h : Nat) (bytes : List Byte) :
    MemoryWf (running filter w h bytes board).mem := writeRun_wf ⟨.nil, by simp⟩ _

theorem scratch_wf_running (filter : Word) (w h : Nat) (bytes : List Byte) :
    MemoryWf (running filter w h bytes board).scratch := ⟨.nil, by intro c hc; cases hc⟩

theorem mem_wf_lit : MemoryWf lit.mem := writeRun_wf ⟨.nil, by simp⟩ _

/-- `StepKeepsInvariant`, `InvariantExcludesFaults`, `KernelNormalized`, `RunningJobCompletes`. -/
theorem test_witness_inv : Inv lit ∧ lit.status.busy = true ∧ lit.stuck = false ∧ lit.portErrors = [] ∧
    lit.inbox = [] ∧ ((1 : Nat) : Int) = lit.active.blurRadius.toInt := by
  refine ⟨?_, rfl, rfl, rfl, rfl, by decide⟩
  exact
    { mem_wf := mem_wf_running _ _ _ _
      mem_below := writeRun_below (fun c hc => by cases hc) _ (.inr (by decide))
      scratch_wf := scratch_wf_running _ _ _ _
      scratch_below := fun c hc => by cases hc
      scratchCap_ge := by decide
      active_legal := by decide
      kcoef_agrees := by decide +kernel
      job_fits := fun _ =>
        ⟨by decide, by decide, by decide, by decide, by decide, fun _ => by decide, by decide, by decide, by decide,
          ⟨0x10000, by decide, by decide, by decide +kernel⟩, by decide, by decide⟩
      stuck_running := nofun
      running_clear := fun _ => ⟨rfl, rfl⟩ }

theorem test_witness_stepKeepsInvariant : ∃ t, step lit = .next t ∧ t.status.busy = false := by
  have h : after (step lit) (fun t => !t.status.busy) = true := by decide +kernel
  generalize step lit = r at h
  cases r with
  | next t => exact ⟨t, rfl, by simpa [after] using h⟩
  | fault r => cases h
  | refused r => cases h

/-- `UndefinedAccessesRefused` and `StepRunsPortInstruction`: a narrow access, an unaligned one, and a defined one at
the last offset of the window. -/
theorem test_witness_port :
    (next (.port { kind := .read, offset := 0xFFC#12, width := 8 }) board).inbox
      = .port { kind := .read, offset := 0xFFC#12, width := 8 } :: [] ∧
    (0xFFD#12 : BitVec 12).toNat % 4 ≠ 0 ∧
    decode (.port { kind := .read, offset := 0xFFC#12, width := 32 }) = .ok (.rd (.reserved 1023#10)) := by decide

/-- `EngineTurnDispatches`: each way the turn comes, each supported selector, and the first unsupported one. -/
theorem test_witness_engineTurn :
    lit.inbox = [] ∧ (next .engine lit).inbox = .engine :: [] ∧ lit.job.filter = 5#32 ∧
    ([0#32, 1#32, 2#32, 3#32, 4#32, 6#32, 7#32].all fun code => (uniform code).job.filter == code) = true ∧
    8 ≤ (uniform 8#32).job.filter.toNat := by decide +kernel

/-- `IdleMachineRests`. -/
theorem test_witness_idle : board.status.busy = false ∧ board.inbox = [] := by decide

/-- `RegisterWrite`: a writable register, a read-only one and a reserved one. -/
theorem test_witness_registerWrite : isWritable (.staged .blurSigma) = true ∧ isWritable (.kcoef 15) = false ∧
    isWritable (.reserved 80#10) = false ∧ Reg.kcoef 15 ≠ .cmd := by decide

/-- `CommitOutcome`, its accepted case at the bounds of every range. -/
theorem test_witness_commitAccepted :
    ∀ ps ∈ [Params.mk 0#32 1#32 1#32 1#32 1#32 1#32,
        Params.mk 0x7FFFFFFF#32 0xFFFFFFFF#32 15#32 0x7FFFFFFF#32 15#32 256#32],
      0 ≤ ps.brightNum.toInt ∧ 1 ≤ ps.brightDen.toNat ∧ 1 ≤ ps.blurRadius.toInt ∧ ps.blurRadius.toInt ≤ 15 ∧
      1 ≤ ps.blurSigma.toInt ∧ 1 ≤ ps.oilRadius.toInt ∧ ps.oilRadius.toInt ≤ 15 ∧ 1 ≤ ps.oilBuckets.toInt ∧
      ps.oilBuckets.toInt ≤ 256 := by decide

/-- `CommitOutcome`, its rejected case: each of its conditions, just outside its range (K2 to K12). -/
theorem test_witness_commitRejected :
    (0xFFFFFFFF#32 : Word).toInt < 0 ∧ (0#32 : Word).toNat = 0 ∧ (0#32 : Word).toInt < 1 ∧ 15 < (16#32 : Word).toInt ∧
    256 < (257#32 : Word).toInt := by decide

/-- A machine about to receive a `PROCESS`. -/
def asked (filter w h inBase inLen outBase outLen : Word) : State :=
  { board with filter := filter, width := w, height := h, inBase := inBase, inLen := inLen, outBase := outBase
               outLen := outLen }

/-- `ProcessOutcome`, each of its cases at a boundary value, by the word of `STATUS` it leaves: a range that ends at the
top of memory is accepted, one byte further is not; touching ranges are accepted, overlapping ones are not. -/
theorem test_witness_processOutcome :
    after (exec .process lit) (fun t => statusOf t == 5#32) = true ∧
    after (exec .process (asked 0#32 0#32 1#32 0#32 0#32 0#32 0#32)) (fun t => statusOf t == 0x12#32) = true ∧
    after (exec .process (asked 0#32 1#32 1#32 0#32 4#32 8#32 5#32)) (fun t => statusOf t == 0x12#32) = true ∧
    after (exec .process (asked 0#32 1#32 1#32 0xFFFFFFFC#32 4#32 0#32 4#32)) (fun t => statusOf t == 1#32) = true ∧
    after (exec .process (asked 0#32 1#32 1#32 0xFFFFFFFD#32 4#32 0#32 4#32)) (fun t => statusOf t == 0x12#32) = true ∧
    after (exec .process (asked 0#32 1#32 1#32 0#32 4#32 4#32 4#32)) (fun t => statusOf t == 1#32) = true ∧
    after (exec .process (asked 0#32 1#32 1#32 0#32 4#32 3#32 4#32)) (fun t => statusOf t == 0x22#32) = true ∧
    after (exec .process (asked 6#32 4#32 4#32 0#32 64#32 0#32 64#32)) (fun t => statusOf t == 1#32) = true ∧
    after (exec .process (asked 6#32 17#32 1#32 0#32 68#32 0#32 68#32)) (fun t => statusOf t == 0x42#32) = true := by
  decide

/-- `OverlapReportedExactly`: the hypotheses with an overlap of one byte and with none. -/
theorem test_witness_overlap :
    (4 : Int) = (1#32 : Word).toInt * (1#32 : Word).toInt * 4 ∧ (1 : Int) ≤ (1#32 : Word).toInt ∧
      ((4#32 : Word).toNat : Int) = 4 ∧ ((0#32 : Word).toNat : Int) + 4 ≤ 2 ^ 32 ∧
      ([3#32, 4#32].all fun ob => !(asked 0#32 1#32 1#32 0#32 4#32 ob 4#32).status.busy &&
        ob.toNat + 4 ≤ 2 ^ 32 && after (exec .process (asked 0#32 1#32 1#32 0#32 4#32 ob 4#32)) (fun _ => true))
        = true := by decide +kernel

/-- The pointwise results (`PointwiseResult`), and the factor of `BrightnessResult`. -/
theorem test_witness_pointwise (filter : Word) : MemoryWf (uniform filter).mem ∧ JobReady false (uniform filter) ∧
    0 ≤ (uniform filter).job.num ∧ 1 ≤ (uniform filter).job.den :=
  ⟨mem_wf_running _ _ _ _, jobReady_running _ _ _, by show (0 : Int) ≤ 6; decide, by show 1 ≤ 5; decide⟩

/-- `PointwiseFamilyProperties`: a second job, in place on the first one's output. -/
theorem test_witness_readsOutputOf : ∃ t u v, exec .invert (uniform 1#32) = .next t ∧
    ReadsOutputOf (uniform 1#32) t u ∧ exec .invert u = .next v := by
  let u : State := { uniform 1#32 with
    mem := (completeJob .ok (pointwiseEffect invertPixel (uniform 1#32))).mem
    job := { (uniform 1#32).job with inBase := 0x80 } }
  have hu : JobReady false u := ⟨rfl, rfl, by show 0x80 + 3 * 3 * 4 ≤ 2 ^ 32; decide, by show 0x80 + 3 * 3 * 4 ≤ 2 ^ 32; decide,
    nofun, (rangeAnswers_iff _ _ _ _).mpr fun _ _ _ => rfl, (rangeAnswers_iff _ _ _ _).mpr fun _ _ _ => rfl⟩
  have e : ∀ s, exec .invert s = runJob false .ok (pointwiseEffect invertPixel) s := fun _ => rfl
  exact ⟨_, u, _, (e _).trans (runJob_ready (jobReady_running _ _ _)), ⟨rfl, rfl, rfl, rfl, hu⟩,
    (e _).trans (runJob_ready hu)⟩

/-- The spatial results (`SpatialResult`), with an interior and a border pixel for `EdgeResult`, and a bucket count for
`OilPaintResult`. -/
theorem test_witness_spatial (filter : Word) : MemoryWf (uniform filter).mem ∧ MemoryWf (uniform filter).scratch ∧
    JobReady true (uniform filter) ∧ (1 + 1 < (uniform filter).job.width ∧ 1 + 1 < (uniform filter).job.height) ∧
    1 ≤ (uniform filter).job.buckets ∧ (uniform filter).job.buckets ≤ 256 ∧ 1 ≤ (uniform filter).job.oilRadius :=
  ⟨mem_wf_running _ _ _ _, scratch_wf_running _ _ _ _, jobReady_running _ _ _, ⟨by show 2 < 3; decide, by
    show 2 < 3; decide⟩, by show 1 ≤ 20; decide, by show 20 ≤ 256; decide, by show 1 ≤ 1; decide⟩

/-- `BlurStaysInRange` and `BlurLeavesImage`: a normalized kernel, bounds of a channel, and each kind of image. -/
theorem test_witness_blur :
    coefficient lit.job.kernel 0 + 2 * (∑ i ∈ Finset.Icc 1 lit.job.blurRadius, coefficient lit.job.kernel i) = 65536 ∧
    (∀ x y, x < lit.job.width → y < lit.job.height →
      0 ≤ (channelOf (inputImage lit x y) .r).toNat ∧ (channelOf (inputImage lit x y) .r).toNat ≤ 255) ∧
    (∀ x, x < 3 → ∀ y, y < 3 → inputImage (uniform 5#32) x y = { r := 9, g := 9, b := 9, a := 9 }) ∧
    (running 5#32 1 1 [] board).job.width = 1 ∧ coefficient (kernelFile 1 0x199A) 0 = 65536 ∧
    coefficient (kernelFile 1 0x199A) 1 = 0 ∧ after (exec .blur lit) (fun _ => true) = true := by
  refine ⟨by decide, fun x y _ _ => ⟨Nat.zero_le _, Nat.le_of_lt_succ (BitVec.isLt _)⟩, by decide +kernel, rfl,
    by decide +kernel, by decide +kernel, by decide +kernel⟩

/-- `EdgeOfFlatImages` and `OilPaintOfUniformImage`: a narrow image, and a uniform one with an interior pixel. -/
theorem test_witness_uniform : (running 6#32 2 3 [] board).job.width ≤ 2 ∧
    (∀ x, x < 3 → ∀ y, y < 3 → inputImage (uniform 6#32) x y = { r := 9, g := 9, b := 9, a := 9 }) ∧
    after (exec .edge (uniform 6#32)) (fun _ => true) = true ∧
    after (exec .edge (running 6#32 2 3 [] board)) (fun _ => true) = true ∧
    after (exec .oilpaint (uniform 7#32)) (fun _ => true) = true := by decide +kernel

/-- `JobDependsOnInputOnly` and `EveryFilterKeepsAlpha`: two states that differ in a register, in the scratch RAM and in
a byte outside both ranges. -/
theorem test_witness_jobDependsOnInputOnly :
    let other : State := { lit with filter := 1#32, scratch := [(0, 1#8)], mem := writeByte lit.mem 0x10 1 }
    JobReady true other ∧ MemoryWf other.mem ∧ MemoryWf other.scratch ∧ lit.job = other.job ∧
      (∀ a, inInput lit.job a = true → readByte lit.mem a = readByte other.mem a) ∧
      after (exec .blur lit) (fun _ => true) = true ∧ after (exec .blur other) (fun _ => true) = true := by
  refine ⟨⟨rfl, rfl, by decide, by decide, fun _ => by decide, by decide +kernel, by decide +kernel⟩,
    (show MemoryWf (writeByte lit.mem 0x10 1) from writeByte_wf mem_wf_lit _ _), ⟨by simp, by decide⟩, rfl, fun a ha => ?_, by decide +kernel,
    by decide +kernel⟩
  show readByte lit.mem a = readByte (writeByte lit.mem 0x10 1) a
  rw [readByte_writeByte mem_wf_lit, if_neg]
  rintro rfl
  exact absurd ha (by decide)

/-- `PortErrorStallsJob`: reads of the first byte of the input range, or writes of the last byte of the output range,
always fail. -/
theorem test_witness_portError :
    (jobAccesses lit.job .read 0x20 = true ∧ addressFails [⟨.read, 0x20, 1⟩] .read 0x20 = true) ∧
    (jobAccesses lit.job .write 0xA3 = true ∧ addressFails [⟨.write, 0xA3, 1⟩] .write 0xA3 = true) ∧
    jobAccesses lit.job .write 0xA4 = false ∧ jobBytes lit.job ≤ lit.scratchCap := by decide

/-- `MemoryErrorStallsJob` and `StuckJobStays`: an access of the running job that fails once leaves a stuck job, which a
turn of the engine leaves stuck; an address the job does not write to leaves none. -/
theorem test_witness_memoryError :
    after (step (next (.memoryError .write 0xA3#32) lit)) (fun t => t.stuck && t.status.busy &&
      after (step t) (fun u => u.stuck && u.status.busy)) = true ∧
    after (step (next (.memoryError .write 0x20#32) lit)) (fun t => !t.stuck) = true := by decide +kernel

/-- R68: an output range in read-only memory, which the platform answers reads of and no write, leaves the job stuck; an
input range there does not. -/
theorem test_readOnlyMemory :
    after (step { lit with portErrors := [⟨.write, 0x80, 1⟩] }) (fun t => t.stuck && statusOf t == 1#32) = true ∧
    after (step { lit with portErrors := [⟨.write, 0x20, 36⟩] }) (fun t => !t.stuck && statusOf t == 2#32) = true := by
  decide +kernel

/-- `BoundarySampler` at the ends of its cases (R101). -/
theorem test_witness_boundarySampler : (1 : Nat) ≤ 5 ∧ (-1 : Int) < 0 ∧ ((5 : Nat) : Int) ≤ 5 ∧ clampCoord (-1) 5 = 0 ∧
    clampCoord 0 5 = 0 ∧ clampCoord 4 5 = 4 ∧ clampCoord 5 5 = 4 := by decide

/-- `KernelIsReference` and `KernelProperties`: their ranges at both ends. -/
theorem test_witness_kernel : ∀ r ∈ [1, 15], ∀ s ∈ [1, 2 ^ 31 - 1], 1 ≤ r ∧ r ≤ 15 ∧ 1 ≤ s ∧ s < 2 ^ 31 := by decide
/-- The precision that the generator tries first decides at these ends, and at the example of R113. -/
theorem test_kernel_precision : kqDecided 128 1 1 = true ∧ kqDecided 128 15 1 = true ∧
    kqDecided 128 1 (2 ^ 31 - 1) = true ∧ kqDecided 128 15 (2 ^ 31 - 1) = true ∧
    (kq 15 22561789).take 3 = [2114, 2115, 2115] := by
  decide +kernel

/-- `BusyChangesExactly`: an accepted `PROCESS` and a completion. -/
theorem test_witness_busy :
    after (step (next (.port (writeOf .cmd 2#32)) (asked 0#32 1#32 1#32 0#32 4#32 4#32 4#32)))
      (fun t => t.status.busy) = true ∧
    after (step (next .engine lit)) (fun t => !t.status.busy) = true := by decide +kernel

/-- `ResultCodesChangeOnlyAt`, `StickyBitsStay` and `ParametersPersist`: steps at which the fields do change. -/
theorem test_witness_status :
    after (step (next (.port (writeOf .cmd 2#32)) board)) (fun t => t.status.done && t.status.perr != .ok) = true ∧
    after (step (next (.port (writeOf .cmd 2#32)) lit)) (fun t => t.status.ovr) = true ∧
    after (step (next (.port (writeOf .cmd 0#32)) board)) (fun t => t.status.badcmd) = true ∧
    after (step (next .reset lit)) (fun t => !t.status.ovr) = true ∧
    after (step (next (.port (writeOf (.staged .oilRadius) 2#32)) board)) (fun t => t.staged != board.staged) = true ∧
    after (step (next (.port (writeOf .cmd 1#32)) { board with staged := { Params.reset with blurRadius := 2#32 } }))
      (fun t => t.active != board.active && t.kcoef != board.kcoef) = true := by decide +kernel

/-- `MemoryChangesOnlyInOutput`: a host write and a completion that change a byte. -/
theorem test_witness_memoryChanges :
    after (step (next (.store 0x7F#32 1#8) lit)) (fun t => readByte t.mem 0x7F != readByte lit.mem 0x7F) = true ∧
    after (step (next .engine lit)) (fun t => readByte t.mem 0x90 != readByte lit.mem 0x90) = true := by decide +kernel

/-- `HostDutiesWhileBusy` and `RunningJobUndisturbed`: the first and the last byte of each range, and the bytes beside
them. -/
theorem test_witness_hostDuties :
    (∀ a ∈ [0x20, 0x43], inInput lit.job a = true) ∧ (∀ a ∈ [0x1F, 0x44], inInput lit.job a = false) ∧
    (∀ a ∈ [0x80, 0xA3], inOutput lit.job a = true) ∧ (∀ a ∈ [0x7F, 0xA4], inOutput lit.job a = false) ∧
    addressFails lit.portErrors .read 0x20 = false ∧ addressFails lit.portErrors .write 0x20 = false ∧
    nextAction (next (.store 0x7F#32 1#8) lit) ≠ .reset ∧
    step (next (.store 0xA3#32 1#8) lit) = .refused .hostStoreDuringJob ∧
    step (next (.load 0x80#32) lit) = .refused .hostLoadDuringJob ∧
    after (step (next (.load 0x30#32) lit)) (fun t => t.loadData == 255#8) = true := by
  refine ⟨by decide, by decide, by decide, by decide, by decide, by decide, by decide, rfl, rfl, by decide +kernel⟩

/-- `ResetInput` and `ResetDuringJob`. -/
theorem test_witness_reset : (next .reset lit).inbox = .reset :: [] ∧ MemoryWf (next .reset lit).mem ∧
    (next .reset lit).status.busy = true ∧ (next .reset board).status.busy = false :=
  ⟨rfl, mem_wf_lit, rfl, rfl⟩

end Sys2Proof.Machine.Tests
end

namespace Sys2Proof.Machine

/-! ## Sample codes -/

/-- Settles O3: nine closed codes, decoded. -/
theorem sampleCodesDecode : Obligations.SampleCodesDecode := by
  unfold Obligations.SampleCodesDecode
  decide

/-! ## The word of `STATUS` -/

variable (st : Status)

theorem statusWord_bit_zero : (statusWord st).getLsbD 0 = st.busy := by
  unfold statusWord; rw [BitVec.getLsbD_append]; simp

theorem statusWord_bit_one : (statusWord st).getLsbD 1 = st.done := by
  unfold statusWord; simp only [BitVec.getLsbD_append]; simp

theorem statusWord_bit_two : (statusWord st).getLsbD 2 = st.ovr := by
  unfold statusWord; simp only [BitVec.getLsbD_append]; simp

theorem statusWord_bit_three : (statusWord st).getLsbD 3 = st.badcmd := by
  unfold statusWord; simp only [BitVec.getLsbD_append]; simp

/-- Above the four flags stand `PERR` and then `CERR`; from bit 12 on a bit of `CERR` beyond its four is read, which
is 0 (R24). -/
theorem getLsbD_statusWord_add (i : Nat) : (statusWord st).getLsbD (4 + i) =
    if i < 4 then (perrNumber st.perr).getLsbD i else (cerrNumber st.cerr).getLsbD (i - 4) := by
  unfold statusWord
  simp only [BitVec.getLsbD_append, show ∀ n, ¬ 4 + n < 1 by omega, show ¬ 4 + i - 1 < 1 by omega,
    show ¬ 4 + i - 1 - 1 < 1 by omega, show ¬ 4 + i - 1 - 1 - 1 < 1 by omega,
    show 4 + i - 1 - 1 - 1 - 1 = i by omega, if_false]
  split
  · rfl
  · split
    · rfl
    · rw [BitVec.getLsbD_zero, BitVec.getLsbD_of_ge _ _ (by omega)]

theorem statusWord_perr : (statusWord st).extractLsb' 4 4 = perrNumber st.perr :=
  BitVec.eq_of_getLsbD_eq fun i hi => by
    rw [BitVec.getLsbD_extractLsb', getLsbD_statusWord_add, if_pos hi, decide_eq_true hi, Bool.true_and]

theorem statusWord_cerr : (statusWord st).extractLsb' 8 4 = cerrNumber st.cerr :=
  BitVec.eq_of_getLsbD_eq fun i hi => by
    rw [BitVec.getLsbD_extractLsb', show 8 + i = 4 + (4 + i) by omega, getLsbD_statusWord_add, if_neg (by omega),
      decide_eq_true hi, Bool.true_and, Nat.add_sub_cancel_left]

theorem statusWord_reserved : (statusWord st).extractLsb' 12 20 = 0#20 :=
  BitVec.eq_of_getLsbD_eq fun i hi => by
    rw [BitVec.getLsbD_extractLsb', show 12 + i = 4 + (8 + i) by omega, getLsbD_statusWord_add, if_neg (by omega),
      BitVec.getLsbD_of_ge _ _ (by omega), Bool.and_false, BitVec.getLsbD_zero]

/-- Settles O12, bit by bit and field by field. -/
theorem statusWordLayout : Obligations.StatusWordLayout := by
  unfold Obligations.StatusWordLayout
  refine ⟨fun st => ⟨statusWord_bit_zero st, statusWord_bit_one st, statusWord_bit_two st, statusWord_bit_three st,
    ?_, ?_, statusWord_reserved st⟩, by decide, fun _ _ => rfl⟩
  · rw [statusWord_perr]; cases st.perr <;> rfl
  · rw [statusWord_cerr]; cases st.cerr <;> rfl

end Sys2Proof.Machine

namespace Sys2Proof.Machine

/-! ## What a step performs -/

variable {s t u : State} {a : Action}

/-- In the state `u`, from which the event has been taken, the action `a` is performed and leaves `t`: one constructor
for each rule of the machine. `performs_of_step` ties it to `step`. -/
inductive Performs (u : State) : Action → State → Prop
  | reset : Performs u .reset (hardwareReset u)
  | memoryError (kind : AccessKind) (address : BitVec 32) :
      Performs u (.memoryError kind address) (portError kind address u)
  | load (address : BitVec 32) :
      Performs u (.load address) { u with loadData := readByte u.mem address.toNat }
  | store (address : BitVec 32) (value : Byte)
      (free : ¬ (u.status.busy = true ∧ (inInput u.job address.toNat = true ∨ inOutput u.job address.toNat = true))) :
      Performs u (.store address value) { u with mem := writeByte u.mem address.toNat value }
  | writeReg (reg : Reg) (data : Word) (not_cmd : reg ≠ .cmd) :
      Performs u (.run (.wr reg data)) (writeReg reg data u)
  | readReg (reg : Reg) : Performs u (.run (.rd reg)) { u with portData := readReg u reg }
  | commit : Performs u (.run .commit) (commitCommand u)
  | process : Performs u (.run .process) (processCommand u)
  | clear : Performs u (.run .clear) (clearCommand u)
  | cmdReserved (word : Word) : Performs u (.run (.cmdReserved word)) (reservedCommand u)
  /-- A turn of the engine without a job, or with a stuck one. -/
  | rest (i : Instr) (turn : i = decodeSelector u.job.filter) (idle : u.status.busy = false ∨ u.stuck = true) :
      Performs u (.run i) u
  /-- The completion step, after a memory effect that left `v`. -/
  | complete (i : Instr) (v : State) (turn : i = decodeSelector u.job.filter) (ready : JobReady (isSpatialOp i) u)
      (frame : EffectFrame (isSpatialOp i) u v) :
      Performs u (.run i)
        { u with mem := v.mem, scratch := v.scratch, status := completedStatus (completionCode i) u }
  /-- A turn of the engine in which the job meets a memory-port error. -/
  | stall (i : Instr) (turn : i = decodeSelector u.job.filter) (busy : u.status.busy = true)
      (not_stuck : u.stuck = false) (not_ready : ¬ JobReady (isSpatialOp i) u) : Performs u (.run i) (stallJob u)

/-- An engine's turn is not an access of the register port. -/
theorem isFilterOp_of_turn {i : Instr} {selector : Word} (h : i = decodeSelector selector) : isFilterOp i = true :=
  h ▸ isFilterOp_decodeSelector selector

/-- A filter operation whose job is ready completes the job (R178). -/
theorem exec_filterOp_ready {i : Instr} (hi : isFilterOp i = true) (hr : JobReady (isSpatialOp i) s) :
    ∃ v, EffectFrame (isSpatialOp i) s v ∧ exec i s =
      .next { s with mem := v.mem, scratch := v.scratch, status := completedStatus (completionCode i) s } := by
  obtain ⟨effect, he, hf⟩ := exec_filterOp hi
  refine ⟨effect s, hf s, ?_⟩
  rw [he, runJob_ready hr, completeJob, (hf s).fields]
  rfl

/-- What an engine's turn that answers a next state performs. -/
theorem performs_of_turn {i : Instr} (turn : i = decodeSelector u.job.filter) (h : exec i u = .next t) :
    Performs u (.run i) t := by
  have hi := isFilterOp_of_turn turn
  rcases exec_filterOp_next hi h with ⟨idle, rfl⟩ | ⟨ready, v, frame, rfl⟩ | ⟨busy, not_stuck, -, rfl⟩
  · exact .rest i turn idle
  · exact .complete i v turn ready frame
  · refine .stall i turn busy not_stuck fun ready => ?_
    obtain ⟨v, -, hv⟩ := exec_filterOp_ready hi ready
    have hbusy : (stallJob u).status.busy = false := by
      rw [hv] at h
      injection h with h
      rw [← h]
      rfl
    rw [stallJob_status, busy] at hbusy
    cases hbusy

/-- What an access of the register port that answers a next state performs. -/
theorem performs_of_port {tr : Transaction} {i : Instr} (hd : decode (.port tr) = .ok i) (h : exec i u = .next t) :
    Performs u (.run i) t := by
  rcases exec_port_next (isFilterOp_of_port hd) h with ⟨reg, d, rfl, hc, rfl⟩ | ⟨d, rfl, -⟩ | ⟨reg, rfl, rfl⟩ |
    ⟨rfl, rfl⟩ | ⟨rfl, rfl⟩ | ⟨rfl, rfl⟩ | ⟨w, rfl, rfl⟩
  · exact .writeReg reg d hc
  · exact absurd hd decode_port_ne_wr_cmd
  · exact .readReg reg
  · exact .commit
  · exact .process
  · exact .clear
  · exact .cmdReserved w

/-- Every step that answers a next state takes its event and performs its action by one of the rules. -/
theorem performs_of_step (h : step s = .next t) : Performs (takeEvent s) (nextAction s) t := by
  rcases step_next h with ⟨ha, rfl⟩ | ⟨kind, b, ha, rfl⟩ | ⟨b, ha, rfl⟩ | ⟨b, v, ha, free, rfl⟩ | ⟨i, ha, he⟩
  · rw [ha]; exact .reset
  · rw [ha]; exact .memoryError kind b
  · rw [ha]; exact .load b
  · rw [ha]; exact .store b v free
  · rw [ha]
    rcases nextAction_run ha with ⟨tr, rest, -, hd⟩ | turn
    · exact performs_of_port hd he
    · exact performs_of_turn turn he

/-! ## What stays over an action -/

@[simp] theorem writeReg_status (reg : Reg) (d : Word) (s : State) : (writeReg reg d s).status = s.status := by
  cases reg <;> rfl

@[simp] theorem writeReg_inbox (reg : Reg) (d : Word) (s : State) : (writeReg reg d s).inbox = s.inbox := by
  cases reg <;> rfl

@[simp] theorem writeReg_portErrors (reg : Reg) (d : Word) (s : State) :
    (writeReg reg d s).portErrors = s.portErrors := by
  cases reg <;> rfl

@[simp] theorem writeReg_stuck (reg : Reg) (d : Word) (s : State) : (writeReg reg d s).stuck = s.stuck := by
  cases reg <;> rfl

@[simp] theorem portError_status (kind : AccessKind) (b : BitVec 32) (s : State) :
    (portError kind b s).status = s.status := by
  unfold portError; split <;> rfl

/-! ## How a step moves `STATUS` -/

/-- The moves of `STATUS` from `st` over an action, where `check` is the outcome of the checks of `PROCESS` (R25 to R28,
R176 to R181). -/
inductive StatusMove (st : Status) (check : Option ProcessCode) : Action → Status → Prop
  | reset : StatusMove st check .reset Status.reset
  | committed (code : CommitCode) : StatusMove st check (.run .commit) (statusCommitted code st)
  | overrun (busy : st.busy = true) : StatusMove st check (.run .process) (statusOverrun st)
  | rejected (code : ProcessCode) (idle : st.busy = false) (fails : check = some code) :
      StatusMove st check (.run .process) (statusRejected code st)
  | accepted (idle : st.busy = false) (passes : check = none) : StatusMove st check (.run .process) (statusAccepted st)
  | cleared : StatusMove st check (.run .clear) (statusCleared st)
  | badCommand (word : Word) : StatusMove st check (.run (.cmdReserved word)) (statusBadCommand st)
  | completed (i : Instr) (filterOp : isFilterOp i = true) (busy : st.busy = true) :
      StatusMove st check (.run i) (statusCompleted (completionCode i) st)
  | kept {a : Action} (not_reset : a ≠ .reset) (not_process : a ≠ .run .process) (not_clear : a ≠ .run .clear) :
      StatusMove st check a st

theorem statusMove_kept_of_filterOp {st : Status} {check : Option ProcessCode} {i : Instr} (hi : isFilterOp i = true) :
    StatusMove st check (.run i) st := by
  refine .kept ?_ ?_ ?_ <;> rintro ⟨⟩ <;> cases hi

theorem Performs.statusMove (h : Performs u a t) : StatusMove u.status (processCheck u) a t.status := by
  cases h with
  | reset => rw [hardwareReset_status]; exact .reset
  | memoryError kind b => rw [portError_status]; exact .kept nofun nofun nofun
  | load b => exact .kept nofun nofun nofun
  | store b v _ => exact .kept nofun nofun nofun
  | writeReg reg d hc => rw [writeReg_status]; exact .kept nofun nofun nofun
  | readReg reg => exact .kept nofun nofun nofun
  | commit => rcases commitCommand_cases u with ⟨-, h⟩ | ⟨-, h⟩ <;> rw [h] <;> exact .committed _
  | process =>
    rcases processCommand_cases u with ⟨hb, h⟩ | ⟨hb, code, hc, h⟩ | ⟨hb, hc, h⟩ <;> rw [h]
    · exact .overrun hb
    · exact .rejected code hb hc
    · exact .accepted hb hc
  | clear => exact .cleared
  | cmdReserved w => exact .badCommand w
  | rest i turn idle => exact statusMove_kept_of_filterOp (isFilterOp_of_turn turn)
  | complete i v turn ready frame => exact .completed i (isFilterOp_of_turn turn) ready.busy
  | stall i turn busy not_stuck not_ready => exact statusMove_kept_of_filterOp (isFilterOp_of_turn turn)

theorem statusMove_of_step (h : step s = .next t) : StatusMove s.status (processCheck s) (nextAction s) t.status :=
  (performs_of_step h).statusMove

/-! ### The bits of `STATUS` over a move -/

variable {st st' : Status} {check : Option ProcessCode}

/-- R25: when no job runs, `BUSY` rises exactly at a `PROCESS` that no check rejects. -/
theorem StatusMove.rises_iff (h : StatusMove st check a st') (idle : st.busy = false) :
    st'.busy = true ↔ a = .run .process ∧ check = none := by
  cases h with
  | reset => simp [Status.reset]
  | committed code => simp [idle]
  | overrun busy => simp [idle] at busy
  | rejected code _ fails => simp [idle, fails]
  | accepted _ passes => simp [passes]
  | cleared => simp [idle]
  | badCommand w => simp [idle]
  | completed i filterOp busy => simp [idle] at busy
  | kept _ not_process _ => simp [idle, not_process]

/-- R25: a running job's `BUSY` falls only at a reset or at its completion step. -/
theorem StatusMove.falls (h : StatusMove st check a st') (busy : st.busy = true) (idle : st'.busy = false) :
    a = .reset ∨ ∃ i, a = .run i ∧ isFilterOp i = true ∧ st' = statusCompleted (completionCode i) st := by
  cases h with
  | reset => exact .inl rfl
  | completed i filterOp _ => exact .inr ⟨i, rfl, filterOp, rfl⟩
  | accepted was_idle _ => simp [busy] at was_idle
  | committed _ | overrun _ | rejected _ _ _ | cleared | badCommand _ | kept _ _ _ => simp [busy] at idle

/-- R27: `OVR` and `BADCMD`, once set, stay over every action but `CLEAR` and reset. -/
theorem StatusMove.sticky (h : StatusMove st check a st') (not_clear : a ≠ .run .clear) (not_reset : a ≠ .reset) :
    (st.ovr = true → st'.ovr = true) ∧ (st.badcmd = true → st'.badcmd = true) := by
  cases h with
  | reset => exact absurd rfl not_reset
  | cleared => exact absurd rfl not_clear
  | overrun _ => exact ⟨fun _ => rfl, id⟩
  | badCommand _ => exact ⟨id, fun _ => rfl⟩
  | committed _ | rejected _ _ _ | accepted _ _ | completed _ _ _ | kept _ _ _ => exact ⟨id, id⟩

/-- R27: `CLEAR` and reset clear `OVR` and `BADCMD`. -/
theorem StatusMove.clears (h : StatusMove st check a st') (ha : a = .run .clear ∨ a = .reset) :
    st'.ovr = false ∧ st'.badcmd = false := by
  cases h with
  | reset => exact ⟨rfl, rfl⟩
  | cleared => exact ⟨rfl, rfl⟩
  | completed i filterOp _ => rcases ha with ⟨⟨⟩⟩ | ⟨⟨⟩⟩; cases filterOp
  | kept not_reset _ not_clear => exact absurd ha (not_or.mpr ⟨not_clear, not_reset⟩)
  | committed _ | overrun _ | rejected _ _ _ | accepted _ _ | badCommand _ => rcases ha with ⟨⟨⟩⟩ | ⟨⟨⟩⟩

/-- R26: where `DONE` or `PERR` changes. -/
theorem StatusMove.result_change (h : StatusMove st check a st') (hne : st'.done ≠ st.done ∨ st'.perr ≠ st.perr) :
    (a = .run .process ∧ st.busy = false) ∨
      (st.busy = true ∧ st'.busy = false ∧ ∃ i, a = .run i ∧ isFilterOp i = true) ∨ a = .run .clear ∨ a = .reset := by
  cases h with
  | rejected _ idle _ => exact .inl ⟨rfl, idle⟩
  | accepted idle _ => exact .inl ⟨rfl, idle⟩
  | completed i filterOp busy => exact .inr (.inl ⟨busy, rfl, i, rfl, filterOp⟩)
  | cleared => exact .inr (.inr (.inl rfl))
  | reset => exact .inr (.inr (.inr rfl))
  | committed _ | overrun _ | badCommand _ | kept _ _ _ => simp at hne

/-- R28: where `CERR` changes. -/
theorem StatusMove.cerr_change (h : StatusMove st check a st') (hne : st'.cerr ≠ st.cerr) :
    a = .run .commit ∨ a = .run .clear ∨ a = .reset := by
  cases h with
  | committed _ => exact .inl rfl
  | cleared => exact .inr (.inl rfl)
  | reset => exact .inr (.inr rfl)
  | overrun _ | rejected _ _ _ | accepted _ _ | badCommand _ | completed _ _ _ | kept _ _ _ => exact absurd rfl hne

/-- Settles O43: the moves of `STATUS` that raise `BUSY`, and those that lower it. -/
theorem busyChangesExactly : Obligations.BusyChangesExactly := by
  unfold Obligations.BusyChangesExactly
  intro s t h
  have hm := statusMove_of_step h
  exact ⟨and_congr_right hm.rises_iff, hm.falls⟩

/-- Settles O44, over the moves of `STATUS`. -/
theorem stickyBitsStay : Obligations.StickyBitsStay := by
  unfold Obligations.StickyBitsStay
  refine ⟨fun s busy => ⟨processCommand s, rfl, ?_⟩, fun w s => ⟨reservedCommand s, rfl, rfl⟩,
    fun s t h => (statusMove_of_step h).sticky, fun s t h => (statusMove_of_step h).clears⟩
  rw [processCommand, if_pos busy]
  rfl

/-- Settles O45, over the moves of `STATUS`. -/
theorem resultCodesChangeOnlyAt : Obligations.ResultCodesChangeOnlyAt := by
  unfold Obligations.ResultCodesChangeOnlyAt
  exact fun s t h => ⟨(statusMove_of_step h).result_change, (statusMove_of_step h).cerr_change⟩

end Sys2Proof.Machine

namespace Sys2Proof.Machine

/-! ## How a step moves the parameters -/

variable {s t u : State} {a : Action}

/-- The parameter registers of two states agree: the staged set, the active set and the kernel (R37). -/
structure SameParams (u t : State) : Prop where
  staged : t.staged = u.staged
  active : t.active = u.active
  kcoef : t.kcoef = u.kcoef

theorem SameParams.refl (u : State) : SameParams u u := ⟨rfl, rfl, rfl⟩

theorem sameParams_stallJob (u : State) : SameParams u (stallJob u) := ⟨rfl, rfl, rfl⟩

theorem sameParams_portError (kind : AccessKind) (b : BitVec 32) (u : State) : SameParams u (portError kind b u) := by
  rcases portError_cases kind b u with ⟨-, -, -, h⟩ | h <;> rw [h]
  · exact sameParams_stallJob u
  · exact .refl u

theorem sameParams_processCommand (u : State) : SameParams u (processCommand u) := by
  rcases processCommand_cases u with ⟨-, h⟩ | ⟨-, _, -, h⟩ | ⟨-, -, h⟩ <;> rw [h] <;> exact ⟨rfl, rfl, rfl⟩

theorem commitCommand_staged (u : State) : (commitCommand u).staged = u.staged := by
  rcases commitCommand_cases u with ⟨-, h⟩ | ⟨-, h⟩ <;> rw [h]

/-- The moves of the parameter registers over an action (R37). -/
inductive ParamsMove (u t : State) : Action → Prop
  | reset : ParamsMove u t .reset
  | staged (p : Param) (data : Word) (staged : t.staged = paramSet p data u.staged) (active : t.active = u.active)
      (kcoef : t.kcoef = u.kcoef) : ParamsMove u t (.run (.wr (.staged p) data))
  | committed (legal : paramsLegal u.staged = true) (staged : t.staged = u.staged) (active : t.active = u.staged)
      (cerr : t.status.cerr = .ok) : ParamsMove u t (.run .commit)
  | kept {a : Action} (same : SameParams u t) : ParamsMove u t a

theorem paramsMove_writeReg (reg : Reg) (d : Word) (u : State) :
    ParamsMove u (writeReg reg d u) (.run (.wr reg d)) := by
  cases reg with
  | staged p => exact .staged p d rfl rfl rfl
  | _ => exact .kept ⟨rfl, rfl, rfl⟩

theorem paramsMove_commitCommand (u : State) : ParamsMove u (commitCommand u) (.run .commit) := by
  rcases commitCommand_cases u with ⟨legal, h⟩ | ⟨-, h⟩ <;> rw [h]
  · exact .committed legal rfl rfl rfl
  · exact .kept ⟨rfl, rfl, rfl⟩

theorem Performs.paramsMove (h : Performs u a t) : ParamsMove u t a := by
  cases h with
  | reset => exact .reset
  | memoryError kind b => exact .kept (sameParams_portError kind b u)
  | writeReg reg d _ => exact paramsMove_writeReg reg d u
  | commit => exact paramsMove_commitCommand u
  | process => exact .kept (sameParams_processCommand u)
  | stall _ _ _ _ _ => exact .kept (sameParams_stallJob u)
  | load _ | store _ _ _ | readReg _ | clear | cmdReserved _ | rest _ _ _ | complete _ _ _ _ _ =>
    exact .kept ⟨rfl, rfl, rfl⟩

/-- R37: where a staged register changes. -/
theorem ParamsMove.staged_change (h : ParamsMove u t a) (hne : t.staged ≠ u.staged) :
    a = .reset ∨ ∃ p d, a = .run (.wr (.staged p) d) ∧ t.staged = paramSet p d u.staged := by
  cases h with
  | reset => exact .inl rfl
  | staged p d staged _ _ => exact .inr ⟨p, d, rfl, staged⟩
  | committed _ staged _ _ => exact absurd staged hne
  | kept same => exact absurd same.staged hne

/-- R37: where an active register or the kernel changes. -/
theorem ParamsMove.active_change (h : ParamsMove u t a) (hne : t.active ≠ u.active ∨ t.kcoef ≠ u.kcoef) :
    a = .reset ∨ (a = .run .commit ∧ paramsLegal u.staged = true ∧ t.active = u.staged ∧ t.status.cerr = .ok) := by
  cases h with
  | reset => exact .inl rfl
  | staged _ _ _ active kcoef => exact absurd hne (not_or.mpr ⟨not_not.mpr active, not_not.mpr kcoef⟩)
  | committed legal _ active cerr => exact .inr ⟨rfl, legal, active, cerr⟩
  | kept same => exact absurd hne (not_or.mpr ⟨not_not.mpr same.active, not_not.mpr same.kcoef⟩)

/-- Settles O46, over the moves of the parameter registers. -/
theorem parametersPersist : Obligations.ParametersPersist := by
  unfold Obligations.ParametersPersist
  refine ⟨fun s t h => ?_, fun s t h => ?_, fun s t h => ?_⟩
  · have hm := (performs_of_step h).paramsMove
    exact ⟨hm.staged_change, hm.active_change⟩
  · obtain rfl : processCommand s = t := by injection h
    obtain ⟨staged, active, kcoef⟩ := sameParams_processCommand s
    exact ⟨staged, active, kcoef⟩
  · obtain rfl : commitCommand s = t := by injection h
    exact commitCommand_staged s

end Sys2Proof.Machine

namespace Sys2Proof.Machine

/-! ## The invariant over each update of the state -/

variable {s t u : State} {a : Action}

/-- Of the state, `JobFits` reads the capacity of the scratch RAM only. -/
theorem JobFits.of_scratchCap {j : Job} (h : JobFits s j) (hc : t.scratchCap = s.scratchCap) : JobFits t j :=
  { h with scratch_fits := fun hu => hc ▸ h.scratch_fits hu }

theorem inv_takeEvent (h : Inv s) : Inv (takeEvent s) :=
  { h with job_fits := fun hb => (h.job_fits hb).of_scratchCap rfl }

/-- The values the host last read, and the model's counter, do not enter. -/
theorem Inv.setReads (h : Inv s) (w : Word) (b : Byte) (n : Nat) :
    Inv { s with portData := w, loadData := b, freeCount := n } :=
  { h with job_fits := fun hb => (h.job_fits hb).of_scratchCap rfl }

theorem Inv.writeReg (h : Inv s) (reg : Reg) (d : Word) : Inv (writeReg reg d s) := by
  obtain ⟨f, w, ht, ib, il, ob, ol, st, e⟩ := writeReg_fields reg d s
  rw [e]
  exact { h with job_fits := fun hb => (h.job_fits hb).of_scratchCap rfl }

/-- A new `STATUS` with the same `BUSY`, in which a running job's `DONE` and `PERR` are still 0. -/
theorem Inv.setStatus (h : Inv s) {st : Status} (hb : st.busy = s.status.busy)
    (hc : st.busy = true → st.done = false ∧ st.perr = .ok) : Inv { s with status := st } :=
  { h with
    job_fits := fun hj => (h.job_fits (hb.symm.trans hj)).of_scratchCap rfl
    stuck_running := fun hs => hb.trans (h.stuck_running hs)
    running_clear := hc }

theorem Inv.setMem (h : Inv s) {m : Memory} (hm : MemoryWf m) (hb : MemoryBelow Config.addressSpace m) :
    Inv { s with mem := m } :=
  { h with mem_wf := hm, mem_below := hb, job_fits := fun hj => (h.job_fits hj).of_scratchCap rfl }

theorem Inv.setScratch (h : Inv s) {sc : Memory} (hs : MemoryWf sc) (hb : MemoryBelow s.scratchCap sc) :
    Inv { s with scratch := sc } :=
  { h with scratch_wf := hs, scratch_below := hb, job_fits := fun hj => (h.job_fits hj).of_scratchCap rfl }

/-- A legal active set with its kernel (R30, R38). -/
theorem Inv.setActive (h : Inv s) {ps : Params} (hl : paramsLegal ps = true) :
    Inv { s with active := ps, kcoef := kernelFile (sext32 ps.blurRadius).toNat (sext32 ps.blurSigma).toNat } :=
  { h with
    active_legal := hl, kcoef_agrees := rfl, job_fits := fun hj => (h.job_fits hj).of_scratchCap rfl }

/-! ## The invariant over each action -/

theorem Inv.store (h : Inv s) (b : BitVec 32) (v : Byte) : Inv { s with mem := writeByte s.mem b.toNat v } :=
  h.setMem (writeByte_wf h.mem_wf _ _) (writeByte_below h.mem_below b.isLt v)

/-- The memory of an abandoned or stalled job stays canonical and below its bound. -/
theorem Inv.scrambled (h : Inv s) (busy : s.status.busy = true) :
    MemoryWf (scrambleOutput s).mem ∧ MemoryBelow Config.addressSpace (scrambleOutput s).mem :=
  ⟨writeRun_wf h.mem_wf _, writeRun_below h.mem_below _ (.inr (h.job_fits busy).output_fits)⟩

theorem Inv.stallJob (h : Inv s) (busy : s.status.busy = true) : Inv (stallJob s) := by
  obtain ⟨hm, hb⟩ := h.scrambled busy
  exact { (h.setMem hm hb).setReads s.portData s.loadData (s.freeCount + 1) with
    job_fits := fun hj => (h.job_fits hj).of_scratchCap rfl, stuck_running := fun _ => busy }

theorem Inv.portError (h : Inv s) (kind : AccessKind) (b : BitVec 32) : Inv (portError kind b s) := by
  rcases portError_cases kind b s with ⟨busy, -, -, e⟩ | e <;> rw [e]
  · exact h.stallJob busy
  · exact h

/-- R21 and R112: the reset values of `KCOEF` are the kernel of radius 1 and sigma 1. -/
theorem kernelFile_reset : KernelFile.reset = kernelFile 1 65536 := by decide +kernel

theorem Inv.hardwareReset (h : Inv s) : Inv (hardwareReset s) := by
  have hm : MemoryWf (Machine.hardwareReset s).mem ∧
      MemoryBelow Config.addressSpace (Machine.hardwareReset s).mem := by
    rcases hardwareReset_mem (s := s) with ⟨busy, e⟩ | ⟨-, e⟩ <;> rw [e]
    · exact h.scrambled busy
    · exact ⟨h.mem_wf, h.mem_below⟩
  refine ⟨hm.1, hm.2, ?_, ?_, ?_, ?_, ?_, ?_, ?_, ?_⟩
  · rw [hardwareReset_scratch]; exact ⟨.nil, nofun⟩
  · rw [hardwareReset_scratch]; exact nofun
  · rw [hardwareReset_scratchCap]; exact h.scratchCap_ge
  · rw [hardwareReset_active]; decide
  · rw [hardwareReset_kcoef, hardwareReset_active]; exact kernelFile_reset
  · rw [hardwareReset_status]; nofun
  · rw [hardwareReset_stuck]; nofun
  · rw [hardwareReset_status]; nofun

theorem Inv.commitCommand (h : Inv s) : Inv (commitCommand s) := by
  rcases commitCommand_cases s with ⟨legal, e⟩ | ⟨-, e⟩ <;> rw [e]
  · exact (h.setActive legal).setStatus rfl h.running_clear
  · exact h.setStatus rfl h.running_clear

/-- The job that an accepted `PROCESS` latches is one that the checks accepted, with legal parameters (R177, R207). -/
theorem Inv.latchedJob_fits (h : Inv s) (passes : processCheck s = none) : JobFits s (latchedJob s) := by
  obtain ⟨⟨hw, hh⟩, -, ⟨hin, hout⟩, hplace, hscratch⟩ := processCheck_none s passes
  obtain ⟨hnum, hden, ⟨hr₁, hr₂⟩, hsig, ⟨ho₁, ho₂⟩, hb₁, hb₂⟩ := (paramsLegal_iff _).mp h.active_legal
  have hbytes := jobBytes_latchedJob hw hh
  have hib : (latchedJob s).inBase = s.inBase.toNat := rfl
  have hob : (latchedJob s).outBase = s.outBase.toNat := rfl
  have hsigma := toInt_lt s.active.blurSigma
  exact
    { width_pos := Int.lt_toNat.mpr hw
      height_pos := Int.lt_toNat.mpr hh
      input_fits := by omega
      output_fits := by omega
      placement := by omega
      scratch_fits := fun hu => by have := hscratch hu; omega
      num_nonneg := hnum
      den_pos := hden
      radius_legal := ⟨Int.lt_toNat.mpr hr₁, Int.toNat_le.mpr hr₂⟩
      kernel_generated := ⟨s.active.blurSigma.toInt.toNat, by omega, by omega, h.kcoef_agrees⟩
      oil_radius_legal := ⟨Int.lt_toNat.mpr ho₁, Int.toNat_le.mpr ho₂⟩
      buckets_legal := ⟨Int.lt_toNat.mpr hb₁, Int.toNat_le.mpr hb₂⟩ }

theorem Inv.processCommand (h : Inv s) : Inv (processCommand s) := by
  rcases processCommand_cases s with ⟨-, e⟩ | ⟨idle, code, -, e⟩ | ⟨idle, passes, e⟩ <;> rw [e]
  · exact h.setStatus rfl h.running_clear
  · exact h.setStatus rfl fun busy => absurd (idle.symm.trans busy) Bool.false_ne_true
  · exact
      { h with
        job_fits := fun _ => (h.latchedJob_fits passes).of_scratchCap rfl
        stuck_running := fun _ => rfl
        running_clear := fun _ => ⟨rfl, rfl⟩ }

theorem Inv.complete (h : Inv s) {spatial : Bool} {v : State} (code : ProcessCode) (ready : JobReady spatial s)
    (frame : EffectFrame spatial s v) :
    Inv { s with mem := v.mem, scratch := v.scratch, status := completedStatus code s } :=
  { (h.setMem (frame.mem_wf h.mem_wf) (frame.below _ h.mem_below ready.output_fits)).setScratch
      (frame.scratch_wf h.scratch_wf) (frame.scratch_below _ h.scratch_below ready.scratch_fits) with
    job_fits := nofun
    stuck_running := fun hs => absurd (ready.not_stuck.symm.trans hs) Bool.false_ne_true
    running_clear := nofun }

/-- Every action keeps the invariant. -/
theorem Performs.keeps_inv (h : Performs u a t) (hu : Inv u) : Inv t := by
  cases h with
  | reset => exact hu.hardwareReset
  | memoryError kind b => exact hu.portError kind b
  | load b => exact hu.setReads _ _ _
  | store b v _ => exact hu.store b v
  | writeReg reg d _ => exact hu.writeReg reg d
  | readReg reg => exact hu.setReads _ _ _
  | commit => exact hu.commitCommand
  | process => exact hu.processCommand
  | clear => exact hu.setStatus rfl fun _ => ⟨rfl, rfl⟩
  | cmdReserved w => exact hu.setStatus rfl hu.running_clear
  | rest _ _ _ => exact hu
  | complete i v _ ready frame => exact hu.complete _ ready frame
  | stall _ _ busy _ _ => exact hu.stallJob busy

/-- Settles O53: the invariant does not read the inbox, and every action keeps it. -/
theorem stepKeepsInvariant : Obligations.StepKeepsInvariant := by
  unfold Obligations.StepKeepsInvariant
  exact fun s t hs h => (performs_of_step h).keeps_inv (inv_takeEvent hs)

end Sys2Proof.Machine

namespace Sys2Proof.Machine

/-! ## The kernel registers under the invariant -/

/-- The list of a kernel, read by offset magnitude: the entries from 1 on sum to its tail. -/
theorem sum_Icc_getD_cons (q : Nat) (l : List Nat) :
    ∑ i ∈ Finset.Icc 1 l.length, (q :: l).getD i 0 = l.sum := by
  rw [← Finset.Ico_add_one_right_eq_Icc, Finset.sum_Ico_eq_sum_range]
  simp [Nat.add_comm 1, Finset.sum_range]

/-- P2 of R113, by offset magnitude. -/
theorem kq_sum_Icc {r s : Nat} (hr : r ≤ 15) (hs : 1 ≤ s) :
    (kq r s).getD 0 0 + 2 * (∑ i ∈ Finset.Icc 1 r, (kq r s).getD i 0) = 65536 := by
  have hsum := kq_sum hr hs
  have hlen := kq_length r s
  cases hk : kq r s with
  | nil => rw [hk] at hlen; cases hlen
  | cons q l =>
    rw [hk] at hsum hlen
    obtain rfl : l.length = r := Nat.succ.inj hlen
    rwa [sum_Icc_getD_cons]

/-- P3 of R113, by offset magnitude. -/
theorem kq_getD_anti {r s i : Nat} (hs : 1 ≤ s) (hi : 1 ≤ i) (hir : i < r) :
    (kq r s).getD (i + 1) 0 ≤ (kq r s).getD i 0 := by
  obtain ⟨j, rfl⟩ : ∃ j, i = j + 1 := ⟨i - 1, by omega⟩
  rw [kq_getD_succ s (by omega), kq_getD_succ s (by omega)]
  exact roundTap_mono (tapOf_anti ((baseLow_le_baseHigh s hs).trans (baseHigh_le s hs)) (by omega) (by omega)) _

/-- A kernel has no coefficient beyond its radius (R115). -/
theorem kq_getD_beyond {r i : Nat} (s : Nat) (hi : r < i) : (kq r s).getD i 0 = 0 :=
  List.getD_eq_default _ _ (by rw [kq_length]; omega)

/-- Settles O55: the kernel registers hold a kernel of a legal radius and sigma. -/
theorem kernelNormalized : Obligations.KernelNormalized := by
  unfold Obligations.KernelNormalized
  intro s r h hr
  obtain ⟨-, -, ⟨-, hr₂⟩, hsigma, -⟩ := (paramsLegal_iff _).mp h.active_legal
  have hr15 : r ≤ 15 := by omega
  have hs1 : 1 ≤ s.active.blurSigma.toInt.toNat := Int.lt_toNat.mpr hsigma
  have hcoef : ∀ i, coefficient s.kcoef i = (kq r s.active.blurSigma.toInt.toNat).getD i 0 := fun i => by
    rw [h.kcoef_agrees, sext32, ← hr, Int.toNat_natCast, coefficient_kernelFile hr15 hs1]
  simp only [hcoef]
  exact ⟨kq_sum_Icc hr15 hs1, fun i => kq_getD_anti hs1, fun i => kq_getD_beyond _⟩

end Sys2Proof.Machine

namespace Sys2Proof.Machine

/-! ## A running job completes -/

variable {s t u : State} {a : Action}

/-- Without failing addresses every range answers. -/
theorem rangeAnswers_of_no_errors {errors : List PortError} (h : errors = []) (kind : AccessKind) (base n : Nat) :
    rangeAnswers errors kind base n = true := by
  subst h
  exact (rangeAnswers_iff [] kind base n).mpr fun _ _ _ => rfl

/-- Under the invariant the completion step of a running job can be taken on a platform without failing addresses. -/
theorem Inv.jobReady (h : Inv s) (busy : s.status.busy = true) (not_stuck : s.stuck = false)
    (no_errors : s.portErrors = []) : JobReady (isSpatialOp (decodeSelector s.job.filter)) s where
  busy := busy
  not_stuck := not_stuck
  input_fits := (h.job_fits busy).input_fits
  output_fits := (h.job_fits busy).output_fits
  scratch_fits hs := (h.job_fits busy).scratch_fits (isSpatialOp_decodeSelector _ ▸ hs)
  input_answers := rangeAnswers_of_no_errors no_errors _ _ _
  output_answers := rangeAnswers_of_no_errors no_errors _ _ _

/-- A host access to buffer memory ends in no fault. -/
theorem hostLoad_ne_fault (b : BitVec 32) (s : State) (r : Fault) : hostLoad b s ≠ .fault r := by
  unfold hostLoad; repeat' split
  all_goals exact nofun

theorem hostStore_ne_fault (b : BitVec 32) (v : Byte) (s : State) (r : Fault) : hostStore b v s ≠ .fault r := by
  unfold hostStore; repeat' split
  all_goals exact nofun

/-- An access of the register port ends in no fault. -/
theorem exec_port_ne_fault {i : Instr} (hi : isFilterOp i = false) (s : State) (r : Fault) : exec i s ≠ .fault r := by
  cases i with
  | wr reg d => simp only [exec, execWr]; split <;> exact nofun
  | rd _ | commit | process | clear | cmdReserved _ => exact nofun
  | _ => cases hi

/-- A filter operation of an accepted job ends in no fault (R53, R203). -/
theorem Inv.exec_turn_ne_fault (h : Inv s) (r : Fault) : exec (decodeSelector s.job.filter) s ≠ .fault r := by
  intro hf
  obtain ⟨effect, he, -⟩ := exec_filterOp (isFilterOp_decodeSelector s.job.filter)
  rw [he] at hf
  obtain ⟨busy, hbad⟩ := runJob_fault hf
  have hfits := h.job_fits busy
  rcases hbad with hin | hout | ⟨hspatial, hscratch⟩
  · exact absurd hfits.input_fits (by omega)
  · exact absurd hfits.output_fits (by omega)
  · exact absurd (hfits.scratch_fits (isSpatialOp_decodeSelector _ ▸ hspatial)) (by omega)

/-- Under the invariant no step ends in a fault. -/
theorem Inv.step_ne_fault (h : Inv s) (r : Fault) : step s ≠ .fault r := by
  intro hf
  unfold step at hf
  split at hf
  · next i hi =>
    rcases nextAction_run hi with ⟨tr, rest, -, hd⟩ | rfl
    · exact exec_port_ne_fault (isFilterOp_of_port hd) _ r hf
    · exact (inv_takeEvent h).exec_turn_ne_fault r hf
  · cases hf
  · exact hostLoad_ne_fault _ _ r hf
  · exact hostStore_ne_fault _ _ _ r hf
  · cases hf
  · cases hf

/-- No step puts an event in the inbox or changes the platform's address map: what an action leaves of both. -/
structure SameOutside (u t : State) : Prop where
  inbox : t.inbox = u.inbox
  portErrors : t.portErrors = u.portErrors

theorem commitCommand_stuck (u : State) : (commitCommand u).stuck = u.stuck := by
  rcases commitCommand_cases u with ⟨-, h⟩ | ⟨-, h⟩ <;> rw [h]

theorem processCommand_stuck (u : State) : (processCommand u).stuck = u.stuck := by
  rcases processCommand_cases u with ⟨-, h⟩ | ⟨-, _, -, h⟩ | ⟨-, -, h⟩ <;> rw [h]

theorem sameOutside_commitCommand (u : State) : SameOutside u (commitCommand u) := by
  rcases commitCommand_cases u with ⟨-, h⟩ | ⟨-, h⟩ <;> rw [h] <;> exact ⟨rfl, rfl⟩

theorem sameOutside_processCommand (u : State) : SameOutside u (processCommand u) := by
  rcases processCommand_cases u with ⟨-, h⟩ | ⟨-, _, -, h⟩ | ⟨-, -, h⟩ <;> rw [h] <;> exact ⟨rfl, rfl⟩

theorem sameOutside_portError (kind : AccessKind) (b : BitVec 32) (u : State) : SameOutside u (portError kind b u) := by
  rcases portError_cases kind b u with ⟨-, -, -, h⟩ | h <;> rw [h] <;> exact ⟨rfl, rfl⟩

theorem Performs.sameOutside (h : Performs u a t) : SameOutside u t := by
  cases h with
  | reset => exact ⟨hardwareReset_inbox, hardwareReset_portErrors⟩
  | memoryError kind b => exact sameOutside_portError kind b u
  | writeReg reg d _ => exact ⟨writeReg_inbox reg d u, writeReg_portErrors reg d u⟩
  | commit => exact sameOutside_commitCommand u
  | process => exact sameOutside_processCommand u
  | load _ | store _ _ _ | readReg _ | clear | cmdReserved _ | rest _ _ _ | complete _ _ _ _ _ | stall _ _ _ _ _ =>
    exact ⟨rfl, rfl⟩

/-- A job that was not stuck gets stuck only at a memory-port error: an event, or a turn of the engine in which its
completion step cannot be taken (R68). -/
theorem Performs.gets_stuck (h : Performs u a t) (was : u.stuck = false) (now : t.stuck = true) :
    (∃ kind b, a = .memoryError kind b) ∨
      (u.status.busy = true ∧ ¬ JobReady (isSpatialOp (decodeSelector u.job.filter)) u) := by
  cases h with
  | memoryError kind b => exact .inl ⟨kind, b, rfl⟩
  | stall i turn busy _ not_ready => exact .inr ⟨busy, turn ▸ not_ready⟩
  | reset => rw [hardwareReset_stuck] at now; cases now
  | writeReg reg d _ => rw [writeReg_stuck, was] at now; cases now
  | commit => rw [commitCommand_stuck, was] at now; cases now
  | process => rw [processCommand_stuck, was] at now; cases now
  | load _ | store _ _ _ | readReg _ | clear | cmdReserved _ | rest _ _ _ | complete _ _ _ _ _ =>
    exact absurd (was.symm.trans now) Bool.false_ne_true

/-- An error of the memory port is the next action only when it is the first event. -/
theorem mem_inbox_of_nextAction {kind : AccessKind} {b : BitVec 32} (h : nextAction s = .memoryError kind b) :
    Event.memoryError kind b ∈ s.inbox := by
  unfold nextAction at h
  split at h
  · cases h
  · cases h
  · unfold actionOfCode at h; split at h <;> cases h
  · cases h
  · cases h
  · next rest hs => cases h; rw [hs]; exact List.mem_cons_self
  · cases h

/-- A job runs, and nothing the platform does will stall it. -/
structure JobPending (s : State) : Prop where
  inv : Inv s
  busy : s.status.busy = true
  not_stuck : s.stuck = false
  no_errors : s.portErrors = []
  no_memoryError : ∀ kind b, Event.memoryError kind b ∉ s.inbox

/-- A step that does not end the job leaves it pending, with one event less to come. -/
theorem JobPending.next (h : JobPending s) (hst : step s = .next t) (busy : t.status.busy = true) :
    JobPending t ∧ t.inbox = s.inbox.tail := by
  have hp := performs_of_step hst
  obtain ⟨hinbox, herrors⟩ := hp.sameOutside
  have hinv := inv_takeEvent h.inv
  refine ⟨⟨hp.keeps_inv hinv, busy, ?_, herrors.trans h.no_errors, fun kind b hm => ?_⟩, hinbox⟩
  · by_contra hstuck
    rcases hp.gets_stuck h.not_stuck (Bool.eq_true_of_not_eq_false hstuck) with ⟨kind, b, ha⟩ | ⟨hb, not_ready⟩
    · exact h.no_memoryError kind b (mem_inbox_of_nextAction ha)
    · exact not_ready (hinv.jobReady hb h.not_stuck h.no_errors)
  · exact h.no_memoryError kind b (List.mem_of_mem_tail (l := s.inbox) (hinbox.subst hm))

/-- With nothing left to come the engine takes its turn and completes the job (assumption 8). -/
theorem JobPending.completes_of_inbox_nil (h : JobPending s) (hn : s.inbox = []) :
    ∃ t, step s = .next t ∧ t.status.busy = false := by
  have hready := (inv_takeEvent h.inv).jobReady h.busy h.not_stuck h.no_errors
  obtain ⟨v, -, hv⟩ := exec_filterOp_ready (isFilterOp_decodeSelector _) hready
  refine ⟨_, .trans ?_ hv, rfl⟩
  rw [step, nextAction, hn, engineAction_eq]
  rfl

theorem run_succ_of_next {M : Host.Core} {x y : M.State} (h : M.step x = .next y) (k : Nat) :
    M.run (k + 1) x = M.run k y := by
  simp only [Host.Core.run, h]

theorem run_succ_of_refused {M : Host.Core} {x : M.State} {r : M.Refusal} (h : M.step x = .refused r) (k : Nat) :
    M.run (k + 1) x = .refused r := by
  simp only [Host.Core.run, h]

/-- A pending job ends, or an access is refused, within one step more than the inbox is long: by induction on the
inbox. -/
theorem JobPending.ends (h : JobPending s) : ∃ k, k ≤ s.inbox.length + 1 ∧
    ((∃ t, core.run k s = .next t ∧ t.status.busy = false) ∨
      ∃ r, core.run k s = .refused r) := by
  induction hin : s.inbox generalizing s with
  | nil =>
    obtain ⟨t, hst, idle⟩ := h.completes_of_inbox_nil hin
    exact ⟨1, le_rfl, .inl ⟨t, run_succ_of_next (M := core) hst 0, idle⟩⟩
  | cons e rest ih =>
    cases hst : step s with
    | fault r => exact absurd hst (h.inv.step_ne_fault r)
    | refused r => exact ⟨1, Nat.le_add_left 1 _, .inr ⟨r, run_succ_of_refused (M := core) hst 0⟩⟩
    | next t =>
      cases busy : t.status.busy with
      | false => exact ⟨1, Nat.le_add_left 1 _, .inl ⟨t, run_succ_of_next (M := core) hst 0, busy⟩⟩
      | true =>
        obtain ⟨ht, hinbox⟩ := h.next hst busy
        obtain ⟨k, hk, hrun⟩ := ih ht (by rw [hinbox, hin, List.tail_cons])
        exact ⟨k + 1, Nat.succ_le_succ hk, by rwa [run_succ_of_next (M := core) hst k]⟩

/-- Settles O56: a job that meets no memory-port error is pending until it ends. -/
theorem runningJobCompletes : Obligations.RunningJobCompletes := by
  unfold Obligations.RunningJobCompletes
  exact fun s hinv busy not_stuck no_errors no_memoryError =>
    JobPending.ends ⟨hinv, busy, not_stuck, no_errors, no_memoryError⟩

end Sys2Proof.Machine

namespace Sys2Proof.Machine

/-! ## What a filter operation writes -/

variable {s t : State} {w h : Nat}

/-- Two images agree on the pixels of a width and a height. -/
def AgreeOn (w h : Nat) (img img' : Image) : Prop := ∀ x y, x < w → y < h → img x y = img' x y

/-- A map of images that reads no pixel outside a width and a height for a pixel within them (R101, R102). -/
def ReadsWithin (w h : Nat) (phase : Image → Image) : Prop :=
  ∀ img img', AgreeOn w h img img' → AgreeOn w h (phase img) (phase img')

theorem ReadsWithin.comp {phase1 phase2 : Image → Image} (h₂ : ReadsWithin w h phase2) (h₁ : ReadsWithin w h phase1) :
    ReadsWithin w h fun img => phase2 (phase1 img) :=
  fun img img' ha => h₂ _ _ (h₁ img img' ha)

theorem readsWithin_copy : ReadsWithin w h fun img => img := fun _ _ ha => ha

/-- A function of a pixel, on an image (R120). -/
def onPixels (f : Pixel → Pixel) (img : Image) : Image := fun x y => f (img x y)

theorem readsWithin_onPixels (f : Pixel → Pixel) : ReadsWithin w h (onPixels f) :=
  fun _ _ ha x y hx hy => congrArg f (ha x y hx hy)

/-- Clamped samples lie within the image (R102). -/
theorem AgreeOn.sample {img img' : Image} (ha : AgreeOn w h img img') (hw : 0 < w) (hh : 0 < h) (x y : Int) :
    sample img w h x y = sample img' w h x y :=
  ha _ _ (clampCoord_lt hw x) (clampCoord_lt hh y)

theorem readsWithin_blurRows (q : KernelFile) (r : Nat) : ReadsWithin w h (blurRows q r w) := by
  intro img img' ha x y hx hy
  have hrow : ∀ i : Int, img (clampCoord i w) y = img' (clampCoord i w) y := fun i =>
    ha _ y (clampCoord_lt (by omega) i) hy
  simp only [blurRows, hrow, ha x y hx hy]

theorem readsWithin_blurColumns (q : KernelFile) (r : Nat) : ReadsWithin w h (blurColumns q r h) := by
  intro img img' ha x y hx hy
  have hcolumn : ∀ i : Int, img x (clampCoord i h) = img' x (clampCoord i h) := fun i =>
    ha x _ hx (clampCoord_lt (by omega) i)
  simp only [blurColumns, hcolumn, ha x y hx hy]

/-- The Sobel operator reads the 3 by 3 neighbours of an interior pixel (R150, R151). -/
theorem sobelMagnitude_congr {img img' : Image} (ha : AgreeOn w h img img') (c : Channel) {x y : Nat}
    (hi : isInterior w h x y = true) : sobelMagnitude img c x y = sobelMagnitude img' c x y := by
  obtain ⟨-, hx, -, hy⟩ := of_decide_eq_true hi
  have hn : ∀ x' y', x' ≤ x + 1 → y' ≤ y + 1 → img x' y' = img' x' y' := fun x' y' hx' hy' =>
    ha x' y' (by omega) (by omega)
  have hX : sobelX img c x y = sobelX img' c x y := by
    simp (disch := omega) only [sobelX, hn]
  have hY : sobelY img c x y = sobelY img' c x y := by
    simp (disch := omega) only [sobelY, hn]
  rw [sobelMagnitude, sobelMagnitude, hX, hY]

theorem readsWithin_sobelImage : ReadsWithin w h (sobelImage w h) := by
  intro img img' ha x y hx hy
  unfold sobelImage
  split
  · next hi => simp only [sobelMagnitude_congr ha _ hi, ha x y hx hy]
  · exact ha x y hx hy

theorem readsWithin_oilImage (r buckets : Nat) : ReadsWithin w h (oilImage w h r buckets) := by
  intro img img' ha x y hx hy
  have hsamples : neighbourhood img w h r x y = neighbourhood img' w h r x y := by
    simp only [neighbourhood, ha.sample (by omega) (by omega)]
  simp only [oilImage, hsamples, ha x y hx hy]

/-- The image that a filter operation makes of its input image, for the parameters of a job (R120 to R125, R140, R150,
R160, R204). `exec_filterOp_mem` ties it to `exec`. -/
def filterImage (j : Job) : Instr → Image → Image
  | .invert => onPixels invertPixel
  | .grayscale => onPixels grayscalePixel
  | .sepia => onPixels sepiaPixel
  | .brightness => onPixels (brightnessPixel j.num j.den)
  | .blur => fun img => blurColumns j.kernel j.blurRadius j.height (blurRows j.kernel j.blurRadius j.width img)
  | .edge => sobelImage j.width j.height
  | .oilpaint => oilImage j.width j.height j.oilRadius j.buckets
  | _ => onPixels nonePixel

theorem readsWithin_filterImage (j : Job) (i : Instr) : ReadsWithin j.width j.height (filterImage j i) := by
  cases i with
  | blur => exact (readsWithin_blurColumns _ _).comp (readsWithin_blurRows _ _)
  | edge => exact readsWithin_sobelImage
  | oilpaint => exact readsWithin_oilImage _ _
  | _ => exact readsWithin_onPixels _

/-- A spatial filter writes its second phase of its first phase of the input image: nothing that the scratch RAM held
before is left in the output (R60). -/
theorem stagedEffect_mem {phase1 phase2 : Image → Image} (hs : MemoryWf s.scratch)
    (h₂ : ReadsWithin s.job.width s.job.height phase2) :
    (stagedEffect phase1 phase2 s).mem =
      writeImage s.mem s.job.outBase s.job.width s.job.height (phase2 (phase1 (inputImage s))) :=
  writeImage_congr (h₂ _ _ fun _ _ hx hy => scratchImage_fillScratch hs hx hy)

/-- The memory that a ready job leaves is that of its effect. -/
theorem runJob_ready_mem {spatial : Bool} {code : ProcessCode} {effect : State → State} (hr : JobReady spatial s)
    (h : runJob spatial code effect s = .next t) : t.mem = (effect s).mem := by
  rw [runJob_ready hr] at h
  injection h with h
  rw [← h, completeJob_mem]

/-- A filter operation whose job is ready writes its image of the input image to the output range, and nothing else of
buffer memory (R59, R178). -/
theorem exec_filterOp_mem {i : Instr} (hi : isFilterOp i = true) (hs : MemoryWf s.scratch)
    (hr : JobReady (isSpatialOp i) s) (h : exec i s = .next t) :
    t.mem = writeImage s.mem s.job.outBase s.job.width s.job.height (filterImage s.job i (inputImage s)) := by
  cases i with
  | none | invert | grayscale | sepia | brightness | filterUnsupported _ => exact runJob_ready_mem hr h
  | blur => exact (runJob_ready_mem hr h).trans (stagedEffect_mem hs (readsWithin_blurColumns _ _))
  | edge | oilpaint => exact (runJob_ready_mem hr h).trans (stagedEffect_mem hs readsWithin_copy)
  | _ => cases hi

theorem inInput_iff {j : Job} {a : Nat} : inInput j a = true ↔ j.inBase ≤ a ∧ a < j.inBase + jobBytes j := by
  simp [inInput]

theorem inOutput_iff {j : Job} {a : Nat} : inOutput j a = true ↔ j.outBase ≤ a ∧ a < j.outBase + jobBytes j := by
  simp [inOutput]

/-- Within its bytes, an image reads back the same from whatever store it was written to. -/
theorem readByte_writeImage_inside {m m' : Memory} {base a : Nat} {img : Image} (hm : MemoryWf m) (hm' : MemoryWf m')
    (ha : base ≤ a ∧ a < base + w * h * 4) :
    readByte (writeImage m base w h img) a = readByte (writeImage m' base w h img) a := by
  rw [writeImage, writeImage, readByte_writeRun hm, readByte_writeRun hm', if_pos ha, if_pos ha]

/-- Settles O32: the output is an image of the input image that reads within it. -/
theorem jobDependsOnInputOnly : Obligations.JobDependsOnInputOnly := by
  unfold Obligations.JobDependsOnInputOnly
  intro i s₁ s₂ t₁ t₂ hi hm₁ hm₂ hs₁ hs₂ hr₁ hr₂ hjob hin h₁ h₂ a ha
  have hinput : AgreeOn s₁.job.width s₁.job.height (inputImage s₁) (inputImage s₂) := fun x y hx hy => by
    rw [inputImage, inputImage, ← hjob]
    exact readImage_congr hx hy fun b hb₁ hb₂ => hin b (inInput_iff.mpr ⟨hb₁, hb₂⟩)
  have houtput := readsWithin_filterImage s₁.job i _ _ hinput
  rw [exec_filterOp_mem hi hs₁ hr₁ h₁, exec_filterOp_mem hi hs₂ hr₂ h₂, ← hjob, writeImage_congr houtput]
  exact readByte_writeImage_inside hm₁ hm₂ (inOutput_iff.mp ha)

end Sys2Proof.Machine

namespace Sys2Proof.Machine

/-! ## The events at the head of the inbox -/

variable {s : State} {e : Event} {rest : List Event}

theorem takeEvent_of_inbox (h : s.inbox = e :: rest) : takeEvent s = { s with inbox := rest } := by
  rw [takeEvent, h, List.tail_cons]

theorem step_of_load {b : BitVec 32} (h : s.inbox = .load b :: rest) :
    step s = hostLoad b { s with inbox := rest } := by
  rw [step, nextAction, h, ← takeEvent_of_inbox h]

theorem step_of_store {b : BitVec 32} {v : Byte} (h : s.inbox = .store b v :: rest) :
    step s = hostStore b v { s with inbox := rest } := by
  rw [step, nextAction, h, ← takeEvent_of_inbox h]

theorem step_of_memoryError {kind : AccessKind} {b : BitVec 32} (h : s.inbox = .memoryError kind b :: rest) :
    step s = .next (portError kind b { s with inbox := rest }) := by
  rw [step, nextAction, h, ← takeEvent_of_inbox h]

/-- An access that decodes runs its instruction (R83). -/
theorem step_of_port_ok {tr : Transaction} {i : Instr} (h : s.inbox = .port tr :: rest) (hd : decode (.port tr) = .ok i) :
    step s = exec i { s with inbox := rest } := by
  rw [step, nextAction, h, ← takeEvent_of_inbox h]
  simp only [actionOfCode, hd]

/-- An access that does not decode is refused (R57). -/
theorem step_of_port_error {tr : Transaction} {why : Reject} (h : s.inbox = .port tr :: rest)
    (hd : decode (.port tr) = .error why) : step s = .refused (.portProtocol why) := by
  rw [step, nextAction, h]
  simp only [actionOfCode, hd]

/-- Settles O7: the equation of the step at an access that decodes. -/
theorem stepRunsPortInstruction : Obligations.StepRunsPortInstruction := by
  unfold Obligations.StepRunsPortInstruction
  exact fun s t rest i h hd => step_of_port_ok h hd

/-! ## Which accesses of the register port are instructions -/

/-- The word indices of the register table (R21, R71). -/
theorem listedIndex_iff (n : Nat) : listedIndex n = true ↔
    n < 10 ∨ (16 ≤ n ∧ n < 22) ∨ (32 ≤ n ∧ n < 38) ∨ 64 ≤ n ∧ n < 80 := by
  simp [listedIndex, or_assoc]

/-- A reserved register is read off an unlisted index only (R42). -/
theorem regOfIndex_wellFormed (index : BitVec 10) : (regOfIndex index).wellFormed = true := by
  unfold regOfIndex
  split
  case h_23 =>
    split
    · rfl
    · rw [Reg.wellFormed, Bool.not_eq_true', Bool.eq_false_iff, Ne, listedIndex_iff]
      simp only [imp_false] at *
      omega
  all_goals rfl

theorem decodeCommand_wellFormed (word : Word) : (decodeCommand word).wellFormed = true := by
  unfold decodeCommand
  split
  · rfl
  · split
    · rfl
    · split
      · rfl
      · simp [Instr.wellFormed, *]

/-- An aligned offset is a multiple of 4 (R57, R71). -/
theorem extractLsb'_two_eq_zero_iff (offset : BitVec 12) : offset.extractLsb' 0 2 = 0#2 ↔ offset.toNat % 4 = 0 := by
  rw [← BitVec.toNat_inj, BitVec.extractLsb'_toNat, Nat.shiftRight_zero]
  rfl

/-- An aligned access of 32 bits decodes to a well-formed instruction (R57, R83). -/
theorem decode_port_ok {tr : Transaction} (hw : tr.width = 32) (ho : tr.offset.toNat % 4 = 0) :
    ∃ i, decode (.port tr) = .ok i ∧ i.wellFormed = true := by
  rw [decode, decodeTransaction, if_neg (not_not.mpr hw),
    if_neg (not_not.mpr ((extractLsb'_two_eq_zero_iff _).mpr ho))]
  have hreg := regOfIndex_wellFormed (tr.offset.extractLsb' 2 10)
  split
  · exact ⟨_, rfl, hreg⟩
  · exact ⟨_, rfl, decodeCommand_wellFormed _⟩
  · next hne => exact ⟨_, rfl, by simpa [Instr.wellFormed, hreg] using hne⟩

/-- Every other access does not decode (R57). -/
theorem decode_port_error {tr : Transaction} (h : tr.width ≠ 32 ∨ tr.offset.toNat % 4 ≠ 0) :
    ∃ why, decode (.port tr) = .error why := by
  rw [decode, decodeTransaction]
  by_cases hw : tr.width = 32
  · have ho := mt (extractLsb'_two_eq_zero_iff _).mp (h.resolve_left (not_not.mpr hw))
    rw [if_neg (not_not.mpr hw), if_pos ho]
    exact ⟨_, rfl⟩
  · rw [if_pos hw]
    exact ⟨_, rfl⟩

/-- An instruction of the register port always answers a next state. -/
theorem exec_port_answers {i : Instr} (hi : isFilterOp i = false) (s : State) : ∃ t, exec i s = .next t := by
  cases i with
  | wr reg d => simp only [exec, execWr]; split <;> exact ⟨_, rfl⟩
  | rd _ | commit | process | clear | cmdReserved _ => exact ⟨_, rfl⟩
  | _ => cases hi

/-- Settles O6: the accesses that decode are the aligned ones of 32 bits, and an instruction of the port is never
refused. -/
theorem undefinedAccessesRefused : Obligations.UndefinedAccessesRefused := by
  unfold Obligations.UndefinedAccessesRefused
  intro s tr rest h
  have hok : ¬ (tr.width ≠ 32 ∨ tr.offset.toNat % 4 ≠ 0) → ∃ i, decode (.port tr) = .ok i ∧ i.wellFormed = true :=
    fun hn => decode_port_ok (by omega) (by omega)
  refine ⟨⟨fun hbad => ?_, fun ⟨why, hst⟩ => ?_⟩, hok⟩
  · obtain ⟨why, hd⟩ := decode_port_error hbad
    exact ⟨why, step_of_port_error h hd⟩
  · by_contra hn
    obtain ⟨i, hd, -⟩ := hok hn
    obtain ⟨t, ht⟩ := exec_port_answers (isFilterOp_of_port hd) { s with inbox := rest }
    rw [step_of_port_ok h hd, ht] at hst
    cases hst

/-! ## The host's accesses to buffer memory -/

/-- Settles O48, over the branches of the host's two accesses. -/
theorem hostDutiesWhileBusy : Obligations.HostDutiesWhileBusy := by
  unfold Obligations.HostDutiesWhileBusy
  intro s b v rest
  refine ⟨fun h answers => ?_, fun h answers => ?_⟩
  · rw [step_of_store h, hostStore, if_neg (Bool.eq_false_iff.mp answers)]
    refine ⟨fun breach => if_pos breach, fun free => ⟨_, if_neg free, fun hm c => ?_⟩⟩
    rw [readByte_writeByte hm]
    simp only [eq_comm]
  · rw [step_of_load h, hostLoad, if_neg (Bool.eq_false_iff.mp answers)]
    exact ⟨fun breach => if_pos breach, fun free => if_neg free⟩

end Sys2Proof.Machine

namespace Sys2Proof.Machine

/-! ## Stalled jobs -/

variable {s t u : State} {a : Action}

/-- A stuck job of which only bytes of the output range, the mark and the model's counter differ from `s` (R68). -/
def StalledFrom (s t : State) : Prop :=
  ∃ m n, t = { s with mem := m, stuck := true, freeCount := n } ∧ OutsideOutput s m

theorem stalledFrom_stallJob (hm : MemoryWf s.mem) : StalledFrom s (stallJob s) :=
  ⟨_, _, stallJob_fields s, scrambleOutput_outside hm⟩

theorem stalledFrom_self (hs : s.stuck = true) : StalledFrom s s :=
  ⟨s.mem, s.freeCount, by rw [← hs], fun _ _ => rfl⟩

/-- A job whose ranges fit and that meets a failing address stalls, or is stuck already (R68). -/
theorem runJob_stalled {spatial : Bool} {code : ProcessCode} {effect : State → State} (hm : MemoryWf s.mem)
    (busy : s.status.busy = true) (hin : s.job.inBase + jobBytes s.job ≤ Config.addressSpace)
    (hout : s.job.outBase + jobBytes s.job ≤ Config.addressSpace)
    (hscratch : spatial = true → jobBytes s.job ≤ s.scratchCap) (not_ready : ¬ JobReady spatial s) :
    ∃ t, runJob spatial code effect s = .next t ∧ StalledFrom s t := by
  cases hs : s.stuck with
  | true => exact ⟨s, runJob_idle (.inr hs), stalledFrom_self hs⟩
  | false =>
    refine ⟨_, ?_, stalledFrom_stallJob hm⟩
    unfold runJob
    rw [if_neg (by simp [busy, hs]), if_neg (by omega), if_neg fun ⟨hsp, hlt⟩ => absurd (hscratch hsp) (by omega),
      if_neg fun ⟨hr, hw⟩ => not_ready ⟨busy, hs, hin, hout, hscratch, hr, hw⟩]

/-- A job that makes an access which always fails cannot take its completion step. -/
theorem not_jobReady_of_addressFails {spatial : Bool} {kind : AccessKind} {b : Nat}
    (hj : jobAccesses s.job kind b = true) (hf : addressFails s.portErrors kind b = true) : ¬ JobReady spatial s := by
  intro ready
  have answers : addressFails s.portErrors kind b = false := by
    cases kind with
    | read =>
      obtain ⟨h₁, h₂⟩ := inInput_iff.mp hj
      exact (rangeAnswers_iff ..).mp ready.input_answers b h₁ h₂
    | write =>
      obtain ⟨h₁, h₂⟩ := inOutput_iff.mp hj
      exact (rangeAnswers_iff ..).mp ready.output_answers b h₁ h₂
  exact Bool.false_ne_true (answers.symm.trans hf)

/-- Settles O34: a job that makes a failing access is not ready, and so stalls. -/
theorem portErrorStallsJob : Obligations.PortErrorStallsJob := by
  unfold Obligations.PortErrorStallsJob
  intro i s hi hm busy hin hout hscratch ⟨kind, b, hj, hf⟩
  obtain ⟨effect, he, -⟩ := exec_filterOp hi
  obtain ⟨_, hrun, m, n, rfl, houtside⟩ := runJob_stalled (code := completionCode i) (effect := effect) hm busy hin hout
    hscratch (not_jobReady_of_addressFails hj hf)
  exact ⟨m, n, (he s).trans hrun, houtside⟩

/-- A stuck job makes no access that could fail (R68). -/
theorem portError_of_stuck (hs : s.stuck = true) (kind : AccessKind) (b : BitVec 32) : portError kind b s = s := by
  rw [portError, if_neg (by simp [hs])]

/-- An error at an access of a running job leaves the job stuck (R68). -/
theorem stalledFrom_portError {kind : AccessKind} {b : BitVec 32} (hm : MemoryWf s.mem) (busy : s.status.busy = true)
    (hj : jobAccesses s.job kind b.toNat = true) : StalledFrom s (portError kind b s) := by
  cases hs : s.stuck with
  | true => rw [portError_of_stuck hs]; exact stalledFrom_self hs
  | false => rw [portError, if_pos ⟨busy, hs, hj⟩]; exact stalledFrom_stallJob hm

/-- Settles O35, over the branches of the port error. -/
theorem memoryErrorStallsJob : Obligations.MemoryErrorStallsJob := by
  unfold Obligations.MemoryErrorStallsJob
  intro s kind b rest hm h
  rw [step_of_memoryError h]
  refine ⟨fun ⟨busy, haccess⟩ => ?_, fun hno => ?_⟩
  · have hj : jobAccesses s.job kind b.toNat = true := by
      rcases haccess with ⟨rfl, hb⟩ | ⟨rfl, hb⟩
      · exact inInput_iff.mpr hb
      · exact inOutput_iff.mpr hb
    obtain ⟨m, n, e, houtside⟩ := stalledFrom_portError (s := { s with inbox := rest }) hm busy hj
    exact ⟨m, n, congrArg _ e, houtside⟩
  · refine congrArg _ (if_neg ?_)
    rintro ⟨busy, -, hj⟩
    rcases hno with idle | hnot
    · exact Bool.false_ne_true (idle.symm.trans busy)
    · exact Bool.false_ne_true (hnot.symm.trans hj)

/-! ## A stuck job stays -/

@[simp] theorem writeReg_job (reg : Reg) (d : Word) (s : State) : (writeReg reg d s).job = s.job := by
  cases reg <;> rfl

/-- The running job of two states agrees: the latch, `BUSY` and the mark of a stuck job (R44, R46, R68). -/
structure SameJob (u t : State) : Prop where
  job : t.job = u.job
  busy : t.status.busy = u.status.busy
  stuck : t.stuck = u.stuck

/-- The result codes of two states agree (R26, R28). -/
structure SameResult (u t : State) : Prop where
  done : t.status.done = u.status.done
  perr : t.status.perr = u.status.perr

theorem sameJob_commitCommand (u : State) : SameJob u (commitCommand u) := by
  rcases commitCommand_cases u with ⟨-, h⟩ | ⟨-, h⟩ <;> rw [h] <;> exact ⟨rfl, rfl, rfl⟩

theorem sameResult_commitCommand (u : State) : SameResult u (commitCommand u) := by
  rcases commitCommand_cases u with ⟨-, h⟩ | ⟨-, h⟩ <;> rw [h] <;> exact ⟨rfl, rfl⟩

theorem processCommand_of_busy (busy : u.status.busy = true) :
    processCommand u = { u with status := statusOverrun u.status } := if_pos busy

/-- Nothing but a reset ends a stuck job (R68). -/
theorem Performs.sameJob_of_stuck (h : Performs u a t) (busy : u.status.busy = true) (stuck : u.stuck = true)
    (not_reset : a ≠ .reset) : SameJob u t ∧ (a ≠ .run .clear → SameResult u t) := by
  cases h with
  | reset => exact absurd rfl not_reset
  | memoryError kind b => rw [portError_of_stuck stuck]; exact ⟨⟨rfl, rfl, rfl⟩, fun _ => ⟨rfl, rfl⟩⟩
  | writeReg reg d _ =>
    exact ⟨⟨writeReg_job reg d u, congrArg _ (writeReg_status reg d u), writeReg_stuck reg d u⟩,
      fun _ => ⟨congrArg _ (writeReg_status reg d u), congrArg _ (writeReg_status reg d u)⟩⟩
  | commit => exact ⟨sameJob_commitCommand u, fun _ => sameResult_commitCommand u⟩
  | process => rw [processCommand_of_busy busy]; exact ⟨⟨rfl, rfl, rfl⟩, fun _ => ⟨rfl, rfl⟩⟩
  | clear => exact ⟨⟨rfl, rfl, rfl⟩, fun not_clear => absurd rfl not_clear⟩
  | complete _ _ _ ready _ => exact absurd (ready.not_stuck.symm.trans stuck) Bool.false_ne_true
  | stall _ _ _ not_stuck _ => exact absurd (not_stuck.symm.trans stuck) Bool.false_ne_true
  | load _ | store _ _ _ | readReg _ | cmdReserved _ | rest _ _ _ =>
    exact ⟨⟨rfl, rfl, rfl⟩, fun _ => ⟨rfl, rfl⟩⟩

/-- Settles O36, over what a step performs on a stuck job. -/
theorem stuckJobStays : Obligations.StuckJobStays := by
  unfold Obligations.StuckJobStays
  refine ⟨fun s t busy stuck hst not_reset => ?_, fun i s hi stuck => ?_⟩
  · obtain ⟨same, hresult⟩ := (performs_of_step hst).sameJob_of_stuck busy stuck not_reset
    exact ⟨same.busy.trans busy, same.stuck.trans stuck, same.job,
      fun not_clear => ⟨(hresult not_clear).done, (hresult not_clear).perr⟩⟩
  · obtain ⟨effect, he, -⟩ := exec_filterOp hi
    exact (he s).trans (runJob_idle (.inr stuck))

end Sys2Proof.Machine

namespace Sys2Proof.Machine

/-! ## Which bytes of buffer memory a step changes -/

variable {s t u : State} {a : Action}

/-- A byte that differs from a memory which only the output range may differ from lies in the output range. -/
theorem OutsideOutput.inOutput_of_ne {m : Memory} (h : OutsideOutput s m) {b : Nat} (hne : readByte m b ≠ readByte s.mem b) :
    inOutput s.job b = true :=
  inOutput_iff.mpr (by_contra fun hb => hne (h b hb))

theorem commitCommand_mem (u : State) : (commitCommand u).mem = u.mem := by
  rcases commitCommand_cases u with ⟨-, h⟩ | ⟨-, h⟩ <;> rw [h]

theorem processCommand_mem (u : State) : (processCommand u).mem = u.mem := by
  rcases processCommand_cases u with ⟨-, h⟩ | ⟨-, _, -, h⟩ | ⟨-, -, h⟩ <;> rw [h]

@[simp] theorem writeReg_mem (reg : Reg) (d : Word) (s : State) : (writeReg reg d s).mem = s.mem := by
  cases reg <;> rfl

/-- The moves of buffer memory over an action (R55, R61, R221). -/
inductive MemoryMove (u : State) (m : Memory) : Action → Prop
  | kept {a : Action} (same : m = u.mem) : MemoryMove u m a
  | stored (address : BitVec 32) (value : Byte) (written : m = writeByte u.mem address.toNat value) :
      MemoryMove u m (.store address value)
  | abandoned (busy : u.status.busy = true) (outside : OutsideOutput u m) : MemoryMove u m .reset
  | failed (kind : AccessKind) (address : BitVec 32) (busy : u.status.busy = true) (outside : OutsideOutput u m) :
      MemoryMove u m (.memoryError kind address)
  | turned (i : Instr) (filterOp : isFilterOp i = true) (busy : u.status.busy = true) (outside : OutsideOutput u m) :
      MemoryMove u m (.run i)

theorem Performs.memoryMove (h : Performs u a t) (hm : MemoryWf u.mem) : MemoryMove u t.mem a := by
  cases h with
  | reset =>
    rcases hardwareReset_mem (s := u) with ⟨busy, e⟩ | ⟨-, e⟩ <;> rw [e]
    · exact .abandoned busy (scrambleOutput_outside hm)
    · exact .kept rfl
  | memoryError kind b =>
    rcases portError_cases kind b u with ⟨busy, -, -, e⟩ | e <;> rw [e]
    · exact .failed kind b busy (scrambleOutput_outside hm)
    · exact .kept rfl
  | store b v _ => exact .stored b v rfl
  | writeReg reg d _ => exact .kept (writeReg_mem reg d u)
  | commit => exact .kept (commitCommand_mem u)
  | process => exact .kept (processCommand_mem u)
  | complete i v turn ready frame => exact .turned i (isFilterOp_of_turn turn) ready.busy (frame.outside hm)
  | stall i turn busy _ _ => exact .turned i (isFilterOp_of_turn turn) busy (scrambleOutput_outside hm)
  | load _ | readReg _ | clear | cmdReserved _ | rest _ _ _ => exact .kept rfl

/-- Settles O47, over the moves of buffer memory. -/
theorem memoryChangesOnlyInOutput : Obligations.MemoryChangesOnlyInOutput := by
  unfold Obligations.MemoryChangesOnlyInOutput
  intro s t hm hst b hne
  have hmove : MemoryMove (takeEvent s) t.mem (nextAction s) := (performs_of_step hst).memoryMove hm
  generalize nextAction s = action at hmove ⊢
  cases hmove with
  | kept same => exact absurd (congrArg (readByte · b) same) hne
  | stored address value written =>
    rw [written, readByte_writeByte (m := (takeEvent s).mem) hm] at hne
    refine .inl ⟨address, value, rfl, ?_⟩
    by_contra hb
    exact hne (if_neg (Ne.symm hb))
  | abandoned busy outside => exact .inr ⟨busy, outside.inOutput_of_ne hne, .inl rfl⟩
  | failed kind address busy outside =>
    exact .inr ⟨busy, outside.inOutput_of_ne hne, .inr (.inl ⟨kind, address, rfl⟩)⟩
  | turned i filterOp busy outside =>
    exact .inr ⟨busy, outside.inOutput_of_ne hne, .inr (.inr ⟨i, rfl, filterOp⟩)⟩

/-! ## No fault under the invariant -/

/-- Settles O54: the law of the step under the invariant. -/
theorem invariantExcludesFaults : Obligations.InvariantExcludesFaults := by
  unfold Obligations.InvariantExcludesFaults
  exact fun s r h => h.step_ne_fault r

end Sys2Proof.Machine

namespace Sys2Proof.Machine

/-! ## The register table and its inverse -/

/-- No two word indices share a register (R71). -/
theorem indexOfReg_regOfIndex (index : BitVec 10) : indexOfReg (regOfIndex index) = index := by
  unfold regOfIndex
  split
  case h_23 =>
    split
    · next hk =>
      refine BitVec.eq_of_toNat_eq ?_
      simp only [indexOfReg, BitVec.toNat_ofNat, Fin.val_ofNat]
      omega
    · rfl
  all_goals next hk => exact BitVec.eq_of_toNat_eq hk.symm

/-- An index that the table does not list reads as reserved (R42). -/
theorem regOfIndex_of_unlisted {index : BitVec 10} (h : listedIndex index.toNat = false) :
    regOfIndex index = .reserved index := by
  unfold regOfIndex
  split
  case h_23 =>
    refine if_neg fun hk => ?_
    rw [(listedIndex_iff _).mpr (.inr (.inr (.inr hk)))] at h
    cases h
  all_goals
    next hk =>
    rw [hk] at h
    cases h

/-- A register is read off its own index (R71). -/
theorem regOfIndex_indexOfReg {reg : Reg} (h : reg.wellFormed = true) : regOfIndex (indexOfReg reg) = reg := by
  cases reg with
  | staged p | active p => cases p <;> rfl
  | kcoef i => revert i; decide
  | reserved index => exact regOfIndex_of_unlisted ((Bool.not_eq_true' _).mp h)
  | _ => rfl

/-- `offset[11:2]` of a register's offset is its index (R71). -/
theorem offsetOfReg_index (reg : Reg) : (offsetOfReg reg).extractLsb' 2 10 = indexOfReg reg :=
  BitVec.extractLsb'_append_eq_left

/-- An aligned offset is the offset of the register it names (R71). -/
theorem offsetOfReg_regOfIndex {offset : BitVec 12} (h : offset.extractLsb' 0 2 = 0#2) :
    offsetOfReg (regOfIndex (offset.extractLsb' 2 10)) = offset := by
  rw [offsetOfReg, indexOfReg_regOfIndex, ← h,
    BitVec.extractLsb'_append_extractLsb'_eq_extractLsb' (Nat.zero_add 2).symm, BitVec.extractLsb'_eq_self]

/-! ## Transactions -/

section

variable {reg : Reg} {d : Word}

theorem decode_readOf (h : reg.wellFormed = true) : decode (.port (readOf reg)) = .ok (.rd reg) := by
  simp [decode, decodeTransaction, readOf, Laws.EncodePort.offsetOfReg_aligned, offsetOfReg_index,
    regOfIndex_indexOfReg h]

theorem decode_writeOf (h : reg.wellFormed = true) (not_cmd : reg ≠ .cmd) :
    decode (.port (writeOf reg d)) = .ok (.wr reg d) := by
  simp [decode, decodeTransaction, writeOf, Laws.EncodePort.offsetOfReg_aligned, offsetOfReg_index,
    regOfIndex_indexOfReg h]

theorem decode_writeOf_cmd : decode (.port (writeOf .cmd d)) = .ok (decodeCommand d) := by
  simp [decode, decodeTransaction, writeOf, Laws.EncodePort.offsetOfReg_aligned, offsetOfReg_index,
    regOfIndex_indexOfReg (reg := .cmd) rfl]

end

/-- The command words are told apart by the whole word (R74, R75). -/
theorem encode_decodeCommand (word : Word) : encode (decodeCommand word) = .port (writeOf .cmd word) := by
  unfold decodeCommand
  split
  · next h => rw [h]; rfl
  · split
    · next h => rw [h]; rfl
    · split
      · next h => rw [h]; rfl
      · rfl

theorem decodeCommand_of_reserved {word : Word} (h : (Instr.cmdReserved word).wellFormed = true) :
    decodeCommand word = .cmdReserved word := by
  simp only [Instr.wellFormed, Bool.and_eq_true, bne_iff_ne] at h
  obtain ⟨⟨h₁, h₂⟩, h₃⟩ := h
  rw [decodeCommand, if_neg h₁, if_neg h₂, if_neg h₃]

/-- A transaction that decodes is the read or the write of a listed or a reserved register (R70, R71). -/
theorem readOf_or_writeOf_of_decode {tr : Transaction} {i : Instr} (h : decode (.port tr) = .ok i) :
    ∃ reg : Reg, reg.wellFormed = true ∧ (tr = readOf reg ∨ ∃ d, tr = writeOf reg d) := by
  obtain ⟨kind, offset, width⟩ := tr
  by_cases hbad : width ≠ 32 ∨ offset.toNat % 4 ≠ 0
  · obtain ⟨why, he⟩ := decode_port_error (tr := ⟨kind, offset, width⟩) hbad
    rw [he] at h
    cases h
  · obtain ⟨rfl, aligned⟩ : width = 32 ∧ offset.toNat % 4 = 0 := by omega
    have hoff := offsetOfReg_regOfIndex ((extractLsb'_two_eq_zero_iff offset).mpr aligned)
    refine ⟨_, regOfIndex_wellFormed (offset.extractLsb' 2 10), ?_⟩
    rw [readOf, hoff]
    cases kind with
    | read => exact .inl rfl
    | write d => exact .inr ⟨d, by rw [writeOf, hoff]⟩

/-- A transaction that decodes is the encoding of its instruction (R83). -/
theorem encode_of_decode_port {tr : Transaction} {i : Instr} (h : decode (.port tr) = .ok i) :
    i.wellFormed = true ∧ encode i = .port tr := by
  obtain ⟨reg, hreg, rfl | ⟨d, rfl⟩⟩ := readOf_or_writeOf_of_decode h
  · rw [decode_readOf hreg] at h
    cases h
    exact ⟨hreg, rfl⟩
  · by_cases hcmd : reg = .cmd
    · subst hcmd
      rw [decode_writeOf_cmd] at h
      cases h
      exact ⟨decodeCommand_wellFormed d, encode_decodeCommand d⟩
    · rw [decode_writeOf hreg hcmd] at h
      cases h
      exact ⟨by simp [Instr.wellFormed, hreg, hcmd], rfl⟩

/-! ## Filter selectors -/

/-- All 32 bits of a selector are compared (R76). -/
theorem encode_decodeSelector (code : Word) : encode (decodeSelector code) = .selector code := by
  unfold decodeSelector
  split
  case h_9 => rfl
  all_goals next hk => exact congrArg Code.selector (BitVec.eq_of_toNat_eq hk.symm)

/-- A code from 8 on is unsupported (R77). -/
theorem decodeSelector_of_ge {code : Word} (h : 8 ≤ code.toNat) : decodeSelector code = .filterUnsupported code := by
  unfold decodeSelector
  split
  case h_9 => rfl
  all_goals omega

theorem decodeSelector_wellFormed (code : Word) : (decodeSelector code).wellFormed = true := by
  unfold decodeSelector
  split
  case h_9 =>
    simp only [imp_false] at *
    exact decide_eq_true (by omega)
  all_goals rfl

/-- No two selectors share a filter operation (R76). -/
theorem decodeSelector_inj {a b : Word} : decodeSelector a = decodeSelector b ↔ a = b := by
  refine ⟨fun h => ?_, congrArg _⟩
  have hcode := congrArg encode h
  rw [encode_decodeSelector, encode_decodeSelector] at hcode
  exact Code.selector.inj hcode

/-- The unsupported selectors are those from 8 on (R77). -/
theorem decodeSelector_eq_filterUnsupported_iff {code : Word} :
    decodeSelector code = .filterUnsupported code ↔ 8 ≤ code.toNat := by
  refine ⟨fun h => ?_, decodeSelector_of_ge⟩
  have hwf := decodeSelector_wellFormed code
  rw [h] at hwf
  exact of_decide_eq_true hwf

theorem isSpatialOp_iff {i : Instr} : isSpatialOp i = true ↔ i = .blur ∨ i = .edge ∨ i = .oilpaint := by
  cases i <;> simp [isSpatialOp]

/-! ## The encoding statements -/

/-- Settles O1, over the instructions: the inverse of the register table for the accesses, the guards of the command
words and of the selectors for the two open families. -/
theorem decodeOfEncode : Obligations.DecodeOfEncode := by
  unfold Obligations.DecodeOfEncode
  intro i h
  cases i with
  | wr reg d =>
    simp only [Instr.wellFormed, Bool.and_eq_true, bne_iff_ne] at h
    obtain ⟨hreg, not_cmd⟩ := h
    exact decode_writeOf hreg not_cmd
  | rd reg => exact decode_readOf h
  | cmdReserved word => exact decode_writeOf_cmd.trans (congrArg _ (decodeCommand_of_reserved h))
  | filterUnsupported code => exact congrArg Except.ok (decodeSelector_of_ge (of_decide_eq_true h))
  | _ => rfl

/-- Settles O2, over the two families of codes. -/
theorem encodeOfDecode : Obligations.EncodeOfDecode := by
  unfold Obligations.EncodeOfDecode
  intro c i h
  cases c with
  | port tr => exact encode_of_decode_port h
  | selector code =>
    cases h
    exact ⟨decodeSelector_wellFormed code, encode_decodeSelector code⟩

/-- Both accesses at the offset of a register (R71). -/
theorem decode_at_offset {offset : BitVec 12} {reg : Reg} (hoff : offset = offsetOfReg reg)
    (h : reg.wellFormed = true) :
    decode (.port { kind := .read, offset := offset, width := 32 }) = .ok (.rd reg) ∧
    (reg ≠ .cmd → ∀ d, decode (.port { kind := .write d, offset := offset, width := 32 }) = .ok (.wr reg d)) := by
  subst hoff
  exact ⟨decode_readOf h, fun not_cmd _ => decode_writeOf h not_cmd⟩

theorem offsetOfReg_kcoef (i : Fin 16) : BitVec.ofNat 12 (0x100 + 4 * i.val) = offsetOfReg (.kcoef i) := by
  revert i; decide

theorem offsetOfReg_reserved (n : Nat) : BitVec.ofNat 12 (4 * n) = offsetOfReg (.reserved (BitVec.ofNat 10 n)) := by
  refine BitVec.eq_of_toNat_eq ?_
  rw [offsetOfReg, indexOfReg, BitVec.toNat_append, BitVec.toNat_ofNat, BitVec.toNat_ofNat, BitVec.toNat_ofNat,
    Nat.zero_mod, Nat.or_zero, Nat.shiftLeft_eq]
  omega

/-- Settles O4, over the blocks of the register table: each offset is the offset of its register. -/
theorem offsetsNameRegisters : Obligations.OffsetsNameRegisters := by
  unfold Obligations.OffsetsNameRegisters
  refine ⟨fun p hp => ?_, fun i => ?_, fun n hn hunlisted => ?_⟩
  · obtain ⟨hoff, hwf⟩ : p.1 = offsetOfReg p.2 ∧ p.2.wellFormed = true := by revert p; decide
    exact decode_at_offset hoff hwf
  · obtain ⟨hread, hwrite⟩ := decode_at_offset (offsetOfReg_kcoef i) rfl
    exact ⟨hread, hwrite Reg.noConfusion⟩
  · have unlisted : (Reg.reserved (BitVec.ofNat 10 n)).wellFormed = true := by
      rw [Reg.wellFormed, Bool.not_eq_true', Bool.eq_false_iff, Ne, listedIndex_iff, BitVec.toNat_ofNat,
        Nat.mod_eq_of_lt hn]
      omega
    obtain ⟨hread, hwrite⟩ := decode_at_offset (offsetOfReg_reserved n) unlisted
    exact ⟨hread, hwrite Reg.noConfusion⟩

/-- Settles O5: the selector table is injective, and its spatial operations are the scratch users. -/
theorem selectorCodes : Obligations.SelectorCodes := by
  unfold Obligations.SelectorCodes
  refine ⟨fun code i h => ?_, fun code => ⟨_, rfl⟩⟩
  cases h
  have hcode (k : Word) : code = k ↔ decodeSelector code = decodeSelector k := decodeSelector_inj.symm
  exact ⟨hcode 0#32, hcode 1#32, hcode 2#32, hcode 3#32, hcode 4#32, hcode 5#32, hcode 6#32, hcode 7#32,
    decodeSelector_eq_filterUnsupported_iff.symm, isSpatialOp_decodeSelector code ▸ isSpatialOp_iff⟩

end Sys2Proof.Machine

namespace Sys2Proof.Machine

/-! ## The boundary sampler and the saturator, as the rules write them -/

/-- R101's formula, in integers: the sampler's natural number truncates nothing. -/
theorem clampCoord_cast (c : Int) (limit : Nat) : (clampCoord c limit : Int) = max 0 (min c (limit - 1)) :=
  Int.toNat_of_nonneg (le_max_left _ _)

/-- Settles O37: R101's formula, read in each of its three cases. -/
theorem boundarySampler : Obligations.BoundarySampler := by
  unfold Obligations.BoundarySampler
  intro c limit hl
  have h := clampCoord_cast c limit
  exact ⟨h, by omega, by omega, by omega, by omega⟩

/-- R104: the integer form of `Sat` is R103's floor. -/
theorem ediv_eq_floor_add_half (p : Int) {d : Nat} (hd : 1 ≤ d) : (2 * p + d) / (2 * d) = ⌊(p : ℚ) / d + 1 / 2⌋ := by
  have h : (p : ℚ) / d + 1 / 2 = ((2 * p + d : Int) : ℚ) / ((2 * d : Nat) : ℚ) := by
    push_cast; field_simp
  rw [h, Rat.floor_intCast_div_natCast]
  push_cast; rfl

/-- A byte holds an integer saturated to 0 … 255. -/
theorem toNat_ofNat_saturated (q : Int) :
    ((BitVec.ofNat 8 (min 255 (max 0 q)).toNat).toNat : Int) = min 255 (max 0 q) := by
  rw [BitVec.toNat_ofNat]; omega

/-- Settles O38: the saturator divides with rounding down after adding a half. -/
theorem saturatorRoundsHalfUp : Obligations.SaturatorRoundsHalfUp := by
  unfold Obligations.SaturatorRoundsHalfUp
  intro p d hd
  rw [sat, toNat_ofNat_saturated, ediv_eq_floor_add_half p hd]

/-! ## The square root, rounded half up -/

/-- A root at most half way from k to k + 1 rounds to k. -/
theorem floor_sqrt_add_half_of_le {n k : Nat} (hk : k * k ≤ n) (hn : n ≤ k * k + k) : ⌊Real.sqrt n + 1 / 2⌋ = k := by
  have hk' : (k : ℝ) * k ≤ n := by exact_mod_cast hk
  have hn' : (n : ℝ) ≤ k * k + k := by exact_mod_cast hn
  have hlo : (k : ℝ) ≤ Real.sqrt n := Real.le_sqrt_of_sq_le (by linarith)
  have hhi : Real.sqrt n < k + 1 / 2 := (Real.sqrt_lt' (by positivity)).mpr (by linarith)
  rw [Int.floor_eq_iff]
  push_cast
  constructor <;> linarith

/-- A root more than half way from k to k + 1 rounds to k + 1. -/
theorem floor_sqrt_add_half_of_lt {n k : Nat} (hn : k * k + k < n) (hk : n < (k + 1) * (k + 1)) :
    ⌊Real.sqrt n + 1 / 2⌋ = k + 1 := by
  have hn' : (k : ℝ) * k + k + 1 ≤ n := by exact_mod_cast hn
  have hk' : (n : ℝ) < (k + 1) * (k + 1) := by exact_mod_cast hk
  have hlo : (k : ℝ) + 1 / 2 ≤ Real.sqrt n := Real.le_sqrt_of_sq_le (by linarith)
  have hhi : Real.sqrt n < k + 1 := (Real.sqrt_lt' (by positivity)).mpr (by linarith)
  rw [Int.floor_eq_iff]
  push_cast
  constructor <;> linarith

/-- Settles O39: `isqrt` finds k, and the remainder tells on which side of the middle of k and k + 1 the root is. -/
theorem squareRootRounds : Obligations.SquareRootRounds := by
  unfold Obligations.SquareRootRounds
  intro n
  obtain ⟨hlo, hhi⟩ := isqrt_spec n
  rw [satSqrt_toNat]
  split
  · next hup => rw [floor_sqrt_add_half_of_lt (by omega) hhi]; push_cast; rfl
  · next hdown => rw [floor_sqrt_add_half_of_le hlo (by omega)]; push_cast; rfl

/-! ## The kernel generator -/

/-- Settles O40: the generator, run at the five codes. -/
theorem kernelPresets : Obligations.KernelPresets := by
  unfold Obligations.KernelPresets
  decide +kernel

/-- The weight of offset i over a base t (R108), with the base of the sum apart: the generator takes the two from
different ends of its enclosure. -/
noncomputable def weightOver (t u : ℝ) (r i : Nat) : ℝ :=
  t ^ (i * i) / (1 + 2 * ∑ j ∈ Finset.range r, u ^ ((j + 1) * (j + 1)))

theorem unrounded_eq_weightOver (t : ℝ) (r i : Nat) : unrounded t r i = 65536 * weightOver t t r i + 1 / 2 := rfl

/-- A weight grows with its own base and falls with that of the sum. -/
theorem weightOver_mono {t t' u u' : ℝ} (ht : 0 ≤ t) (htt : t ≤ t') (hu : 0 ≤ u) (huu : u ≤ u') (r i : Nat) :
    weightOver t u' r i ≤ weightOver t' u r i := by
  have ht' : 0 ≤ t' := ht.trans htt
  unfold weightOver
  gcongr

/-- The ratio that the generator rounds is a weight over the scaled bases. -/
theorem roundTap_eq_floor_weightOver (p : Nat) {t u r i : Nat} (hi : i ≤ r) :
    roundTap (tapOf p t r i) (tapSum p u r)
      = ⌊65536 * weightOver ((t : ℝ) / kqScale p) ((u : ℝ) / kqScale p) r i + 1 / 2⌋ := by
  have hK : (kqScale p : ℝ) ^ (r * r) ≠ 0 := pow_ne_zero _ (by exact_mod_cast kqScale_pos.ne')
  rw [roundTap_eq_floor _ (tapSum_pos _ _), weightOver, ← tapOf_div p hi, ← tapSum_div, div_div_div_cancel_right₀ hK]

/-- `kq_getD_succ`, from the other end of the enclosure. -/
theorem kq_getD_succ_of_high {r s i : Nat} (hs : 1 ≤ s) (hi : i < r) :
    (kq r s).getD (i + 1) 0 = roundTap (tapOf (kqPrecision r s) (baseHigh (kqPrecision r s) s) r (i + 1))
      (tapSum (kqPrecision r s) (baseLow (kqPrecision r s) s) r) := by
  rw [kq_eq_of_high r hs, withCentre, List.getD_cons_succ, outerTaps_getD hi]

/-- The scaled ends of the enclosure hold `t = exp(-2^31 / s^2)`. -/
theorem scaledBase_encloses (p : Nat) {s : Nat} (hs : 1 ≤ s) :
    (baseLow p s : ℝ) / kqScale p ≤ Real.exp (-(2 ^ 31 / ((s : ℝ) * s))) ∧
      Real.exp (-(2 ^ 31 / ((s : ℝ) * s))) ≤ (baseHigh p s : ℝ) / kqScale p := by
  have hB : (0 : ℝ) < kqScale p := by exact_mod_cast kqScale_pos
  rw [div_le_iff₀' hB, le_div_iff₀' hB]
  exact base_encloses hs

/-- R112 over the base `t = exp(-2^31 / s^2)`: both ends of the enclosure round to the coefficient, and the value of R112
lies between them. -/
theorem kq_getD_eq_floor {r s i : Nat} (hs : 1 ≤ s) (hi : 1 ≤ i) (hir : i ≤ r) :
    ((kq r s).getD i 0 : Int) = ⌊unrounded (Real.exp (-(2 ^ 31 / ((s : ℝ) * s)))) r i⌋ := by
  obtain ⟨j, rfl⟩ : ∃ j, i = j + 1 := ⟨i - 1, by omega⟩
  obtain ⟨hlo, hhi⟩ := scaledBase_encloses (kqPrecision r s) hs
  have hexp : 0 ≤ Real.exp (-(2 ^ 31 / ((s : ℝ) * s))) := (Real.exp_pos _).le
  have hlo0 : (0 : ℝ) ≤ (baseLow (kqPrecision r s) s : ℝ) / kqScale (kqPrecision r s) := by positivity
  rw [unrounded_eq_weightOver]
  apply le_antisymm
  · rw [kq_getD_succ s hir, roundTap_eq_floor_weightOver _ hir]
    gcongr
    exact weightOver_mono hlo0 hlo hexp hhi r _
  · rw [kq_getD_succ_of_high hs hir, roundTap_eq_floor_weightOver _ hir]
    gcongr
    exact weightOver_mono hexp hhi hlo0 hlo r _

/-! ## The Gaussian weights of R108 -/

section Gaussian

variable {s : Nat} {σ : ℝ} {g : Int → ℝ} (hs : 1 ≤ s) (hσ : σ = (s : ℝ) / 65536)
  (hg : ∀ i : Int, g i = Real.exp (-((i : ℝ) * i) / (2 * σ * σ)))
include hs hσ hg

/-- Over a sigma code, R108's function is a power of the base `t = exp(-2^31 / s^2)`. -/
theorem gaussian_eq_pow (n : Nat) : g n = Real.exp (-(2 ^ 31 / ((s : ℝ) * s))) ^ (n * n) := by
  have hs' : (s : ℝ) ≠ 0 := Nat.cast_ne_zero.mpr (by omega)
  rw [hg, ← Real.exp_nat_mul, hσ]
  congr 1
  push_cast
  field_simp
  norm_num

/-- The offset 0 counts once in the sum of R108, every other magnitude twice. -/
theorem sum_gaussian (r : Nat) : ∑ j ∈ Finset.Icc (-(r : Int)) r, g j
      = 1 + 2 * ∑ j ∈ Finset.range r, Real.exp (-(2 ^ 31 / ((s : ℝ) * s))) ^ ((j + 1) * (j + 1)) := by
  have heven : g.Even := fun i => by rw [hg, hg]; push_cast; rw [neg_mul_neg]
  have hzero : g 0 = 1 := by rw [hg]; simp
  rw [Finset.sum_Icc_of_even_eq_range heven, Finset.sum_range_succ']
  simp only [gaussian_eq_pow hs hσ hg, Nat.cast_zero, hzero]
  ring

/-- R108's normalized weight is the one over the base `t = exp(-2^31 / s^2)`. -/
theorem gaussianWeight_eq_weightOver (r i : Nat) :
    g i / ∑ j ∈ Finset.Icc (-(r : Int)) r, g j
      = weightOver (Real.exp (-(2 ^ 31 / ((s : ℝ) * s)))) (Real.exp (-(2 ^ 31 / ((s : ℝ) * s)))) r i := by
  rw [gaussian_eq_pow hs hσ hg, sum_gaussian hs hσ hg, weightOver]

/-- R112 in R108's terms. -/
theorem kq_getD_eq_floor_gaussian {r i : Nat} (hi : 1 ≤ i) (hir : i ≤ r) : (((kq r s).getD i 0 : Nat) : Int)
      = ⌊65536 * (g i / ∑ j ∈ Finset.Icc (-(r : Int)) r, g j) + 1 / 2⌋ := by
  rw [gaussianWeight_eq_weightOver hs hσ hg, ← unrounded_eq_weightOver, kq_getD_eq_floor hs hi hir]

end Gaussian

/-- Settles O41: the outer coefficients are R112's floors, and P2 of R113 gives the centre. -/
theorem kernelIsReference : Obligations.KernelIsReference := by
  unfold Obligations.KernelIsReference
  intro r s _ hr hs _ σ g hσ hg
  refine ⟨fun i hi hir => kq_getD_eq_floor_gaussian hs hσ hg hi hir, ?_⟩
  have hsum : ((kq r s).getD 0 0 : Int) + 2 * ∑ i ∈ Finset.Icc 1 r, ((kq r s).getD i 0 : Int) = 65536 := by
    exact_mod_cast kq_sum_Icc hr hs
  linarith

/-- A kernel read at any offset keeps P1 of R113: beyond its end it reads 0. -/
theorem kq_getD_le {r s : Nat} (hr : r ≤ 15) (hs : 1 ≤ s) (i : Nat) : (kq r s).getD i 0 ≤ 65536 := by
  rcases lt_or_ge i (kq r s).length with hi | hi
  · rw [List.getD_eq_getElem _ _ hi]; exact kq_le hr hs (List.getElem_mem hi)
  · rw [List.getD_eq_default _ _ hi]; exact Nat.zero_le _

/-- Settles O42: P1 to P3 are the laws of the generator, and P4 holds because a coefficient is a weight rounded to the
nearest integer. -/
theorem kernelProperties : Obligations.KernelProperties := by
  unfold Obligations.KernelProperties
  intro r s _ hr hs _ σ g hσ hg
  refine ⟨kq_length r s, fun i _ => kq_getD_le hr hs i, kq_sum_Icc hr hs, fun i => kq_getD_anti hs,
    fun i hi hir => ?_⟩
  have hround : (((kq r s).getD i 0 : Nat) : Int) = round (65536 * (g i / ∑ j ∈ Finset.Icc (-(r : Int)) r, g j)) :=
    (kq_getD_eq_floor_gaussian hs hσ hg hi hir).trans (round_eq _).symm
  rw [← Int.cast_natCast, hround, abs_sub_comm]
  exact abs_sub_round _

end Sys2Proof.Machine

namespace Sys2Proof.Machine

/-! ## What a pointwise filter operation leaves -/

variable {s t u v : State} {i : Instr}

/-- A pointwise operation whose job is ready writes its image of the input image to the output range, completes, and
changes nothing else (R120, R178). -/
theorem exec_pointwise_ready (hi : isFilterOp i = true) (hp : isSpatialOp i = false) (hr : JobReady false s) :
    exec i s = .next { s with
      mem := writeImage s.mem s.job.outBase s.job.width s.job.height (filterImage s.job i (inputImage s))
      status := completedStatus (completionCode i) s } := by
  cases i with
  | none | invert | grayscale | sepia | brightness | filterUnsupported _ => exact runJob_ready hr
  | blur | edge | oilpaint => cases hp
  | _ => cases hi

/-- A pointwise operation has a result that its image has at every pixel of every image. -/
theorem pointwiseResult_of_filterImage {P : State → Pixel → Pixel → Prop} (hi : isFilterOp i = true)
    (hp : isSpatialOp i = false) (hP : ∀ s img x y, P s (img x y) (filterImage s.job i img x y)) :
    PointwiseResult i (completionCode i) P := by
  intro s hm hr
  refine ⟨_, exec_pointwise_ready hi hp hr, fun a ha => readByte_writeImage_outside hm ha, fun x y hx hy => ?_⟩
  rw [readImage_writeImage hm hx hy]
  exact hP s _ x y

theorem exec_pointwise_mem (hi : isFilterOp i = true) (hp : isSpatialOp i = false) (hr : JobReady false s)
    (h : exec i s = .next t) :
    t.mem = writeImage s.mem s.job.outBase s.job.width s.job.height (filterImage s.job i (inputImage s)) := by
  rw [exec_pointwise_ready hi hp hr] at h
  injection h with h
  rw [← h]

/-- The output image of a pointwise operation is its image of the input image (R120). -/
theorem exec_pointwise_output (hi : isFilterOp i = true) (hp : isSpatialOp i = false) (hm : MemoryWf s.mem)
    (hr : JobReady false s) (h : exec i s = .next t) : AgreeOn s.job.width s.job.height
      (readImage t.mem s.job.outBase s.job.width) (filterImage s.job i (inputImage s)) := by
  rw [exec_pointwise_mem hi hp hr h]
  exact fun x y hx hy => readImage_writeImage hm hx hy

/-- A job that takes another's output has that output image as its input image. -/
theorem ReadsOutputOf.inputImage_eq (h : ReadsOutputOf s t u) :
    inputImage u = readImage t.mem s.job.outBase s.job.width := by
  rw [inputImage, h.mem, h.input, h.width]

/-- A pointwise operation on the output of itself gives its image of its image of the first input, wherever the second
job writes. -/
theorem exec_pointwise_twice (hi : isFilterOp i = true) (hp : isSpatialOp i = false) (hm : MemoryWf s.mem)
    (hr : JobReady false s) (h₁ : exec i s = .next t) (hu : ReadsOutputOf s t u) (h₂ : exec i u = .next v) :
    AgreeOn s.job.width s.job.height (readImage v.mem u.job.outBase u.job.width)
      (filterImage u.job i (filterImage s.job i (inputImage s))) := by
  intro x y hx hy
  have hmu : MemoryWf u.mem := by
    rw [hu.mem, exec_pointwise_mem hi hp hr h₁]
    exact writeImage_wf hm
  have hread := readsWithin_filterImage u.job i
  rw [hu.width, hu.height] at hread
  calc readImage v.mem u.job.outBase u.job.width x y
      = filterImage u.job i (inputImage u) x y :=
        exec_pointwise_output hi hp hmu hu.ready h₂ x y (hu.width ▸ hx) (hu.height ▸ hy)
    _ = filterImage u.job i (readImage t.mem s.job.outBase s.job.width) x y := by rw [hu.inputImage_eq]
    _ = filterImage u.job i (filterImage s.job i (inputImage s)) x y :=
        hread _ _ (exec_pointwise_output hi hp hm hr h₁) x y hx hy

/-! ## The pixel functions -/

theorem toNat_invert (c : Byte) : (255#8 - c).toNat = 255 - c.toNat := by bv_omega

/-- Inverting a pixel twice gives it back (R126). -/
theorem invertPixel_invertPixel (p : Pixel) : invertPixel (invertPixel p) = p := by
  simp only [invertPixel, sub_sub_cancel]

/-- The saturator of a byte times the denominator is that byte (R104). -/
theorem sat_mul_self (c : Byte) {d : Nat} (hd : 1 ≤ d) : sat (d * c.toNat : Nat) d = c := by
  have hq : (2 * (d * c.toNat) + d) / (2 * d) = c.toNat := by
    rw [← Nat.mul_assoc, Nat.mul_add_div (by omega), Nat.div_eq_of_lt (by omega), Nat.add_zero]
  apply BitVec.eq_of_toNat_eq
  rw [sat_toNat, hq]
  omega

/-- The luma weights of R123 add up to a whole, so the luma of a gray pixel is its gray. -/
theorem grayscalePixel_grayscalePixel (p : Pixel) : grayscalePixel (grayscalePixel p) = grayscalePixel p := by
  have hsum : ∀ (c a : Byte), weightedSum 299 587 114 ⟨c, c, c, a⟩ = 1000 * c.toNat := fun c a => by
    simp only [weightedSum]
    omega
  have hgray : ∀ (c a : Byte), grayscalePixel ⟨c, c, c, a⟩ = ⟨c, c, c, a⟩ := fun c a => by
    simp only [grayscalePixel, hsum, sat_mul_self c (d := 1000) (by omega)]
  exact hgray _ _

/-- The saturator of a channel times a factor that is not negative, in naturals (R125). -/
theorem sat_mul_factor (c : Byte) {num : Int} (hn : 0 ≤ num) (den : Nat) :
    (sat (c.toNat * num) den).toNat = min 255 ((2 * c.toNat * num.toNat + den) / (2 * den)) := by
  obtain ⟨n, rfl⟩ := Int.eq_ofNat_of_zero_le hn
  rw [← Nat.cast_mul, sat_toNat, Int.toNat_natCast, Nat.mul_assoc]

/-! ## The bytes of an image that is read -/

/-- Byte `k` of the image that a store holds is the store's byte `k` from the base on (R52, R100). -/
theorem imageByte_readImage (m : Memory) (base w k : Nat) :
    imageByte (readImage m base w) w k = readByte m (base + k) := by
  have hindex : pixelIndex w (k / 4 % w) (k / 4 / w) + k % 4 = k := by
    rw [pixelIndex, Nat.div_add_mod']
    omega
  have hchannel : ∀ c < 4, ∀ x y, channelOf (readImage m base w x y) (channelAt c)
      = readByte m (base + (pixelIndex w x y + c)) := fun c hc x y => by
    interval_cases c <;> rfl
  rw [imageByte, hchannel _ (Nat.mod_lt _ (by omega)), hindex]

/-! ## Alpha -/

/-- Interior and border pixels alike keep alpha (R154). -/
theorem sobelImage_alpha (w h : Nat) (img : Image) (x y : Nat) : (sobelImage w h img x y).a = (img x y).a := by
  unfold sobelImage
  split <;> rfl

/-- Every filter operation copies alpha (R120, R142, R154, R165). -/
theorem filterImage_alpha (j : Job) (i : Instr) (img : Image) (x y : Nat) :
    (filterImage j i img x y).a = (img x y).a := by
  cases i with
  | edge => exact sobelImage_alpha _ _ _ _ _
  | _ => rfl

/-! ## The statements about pointwise filters -/

/-- Settles O18: the image that `NONE` writes is the input image. -/
theorem noneCopies : Obligations.NoneCopies :=
  pointwiseResult_of_filterImage (i := .none) rfl rfl fun _ _ _ _ => rfl

/-- Settles O19: 255 less a byte does not wrap. -/
theorem invertResult : Obligations.InvertResult :=
  pointwiseResult_of_filterImage (i := .invert) rfl rfl fun _ _ _ _ =>
    ⟨toNat_invert _, toNat_invert _, toNat_invert _, rfl⟩

/-- Settles O20: the saturator of the luma in thousandths, by R104. -/
theorem grayscaleResult : Obligations.GrayscaleResult :=
  pointwiseResult_of_filterImage (i := .grayscale) rfl rfl fun _ _ _ _ => ⟨sat_toNat _ 1000, rfl, rfl, rfl⟩

/-- Settles O21: the saturator of each matrix row in thousandths, by R104. -/
theorem sepiaResult : Obligations.SepiaResult :=
  pointwiseResult_of_filterImage (i := .sepia) rfl rfl fun _ _ _ _ =>
    ⟨sat_toNat _ 1000, sat_toNat _ 1000, sat_toNat _ 1000, rfl⟩

/-- Settles O22: the saturator of each channel times the latched numerator. -/
theorem brightnessResult : Obligations.BrightnessResult :=
  pointwiseResult_of_filterImage (i := .brightness) rfl rfl fun s _ _ _ hn _ =>
    ⟨sat_mul_factor _ hn s.job.den, sat_mul_factor _ hn s.job.den, sat_mul_factor _ hn s.job.den, rfl⟩

/-- Settles O24: `INVERT` and `GRAYSCALE` twice by their pixel functions applied twice, alpha and the bytes of `NONE` by
the image each operation writes. -/
theorem pointwiseFamilyProperties : Obligations.PointwiseFamilyProperties := by
  unfold Obligations.PointwiseFamilyProperties
  intro s t hm hr
  have hkind : ∀ i ∈ [Instr.none, Instr.invert, Instr.grayscale, Instr.sepia, Instr.brightness],
      isFilterOp i = true ∧ isSpatialOp i = false := by decide
  refine ⟨fun u v h₁ hu h₂ x y hx hy => ?_, fun u v h₁ hu h₂ x y hx hy => ?_, fun i hi h x y hx hy => ?_,
    fun h k hk => ?_⟩
  · rw [exec_pointwise_twice rfl rfl hm hr h₁ hu h₂ x y hx hy]
    exact invertPixel_invertPixel _
  · rw [exec_pointwise_twice rfl rfl hm hr h₁ hu h₂ x y hx hy, exec_pointwise_output rfl rfl hm hr h₁ x y hx hy]
    exact grayscalePixel_grayscalePixel _
  · obtain ⟨hfilter, hpointwise⟩ := hkind i hi
    rw [exec_pointwise_output hfilter hpointwise hm hr h x y hx hy, filterImage_alpha]
  · have hcopy : filterImage s.job .none (inputImage s) = readImage s.mem s.job.inBase s.job.width := rfl
    rw [exec_pointwise_mem rfl rfl hr h, hcopy, writeImage, readByte_writeRun hm,
      if_pos ⟨by omega, Nat.add_lt_add_left hk _⟩, Nat.add_sub_cancel_left, imageByte_readImage]

/-- Settles O33: every operation writes an image with the alpha of its input image. -/
theorem everyFilterKeepsAlpha : Obligations.EveryFilterKeepsAlpha := by
  unfold Obligations.EveryFilterKeepsAlpha
  intro i s t hi hm hs hr h x y hx hy
  rw [exec_filterOp_mem hi hs hr h, readImage_writeImage hm hx hy, filterImage_alpha]

end Sys2Proof.Machine

namespace Sys2Proof.Machine

/-! ## What a spatial filter operation leaves -/

variable {s t : State} {i : Instr}

/-- A spatial operation has a result that its second phase has at every pixel of every scratch image that is its first
phase of the input image (R60, R178). -/
theorem spatialResult_of_phases {P : State → Image → Image → Nat → Nat → Pixel → Prop}
    (phase1 phase2 : Job → Image → Image)
    (he : ∀ s, exec i s = runJob true .ok (stagedEffect (phase1 s.job) (phase2 s.job)) s)
    (hP : ∀ s img tmp x y, tmp x y = phase1 s.job img x y → P s img tmp x y (phase2 s.job tmp x y)) :
    SpatialResult i P := by
  intro s hm hs hr
  refine ⟨_, _, (he s).trans (runJob_ready hr), stagedEffect_outside hm, stagedEffect_scratch hs,
    fun x y hx hy => ?_⟩
  rw [outputImage_stagedEffect hm hx hy]
  exact hP s _ _ x y (scratchImage_fillScratch hs hx hy)

/-- The output image of a filter operation is its image of the input image (R59). -/
theorem exec_filterOp_output (hi : isFilterOp i = true) (hm : MemoryWf s.mem) (hs : MemoryWf s.scratch)
    (hr : JobReady (isSpatialOp i) s) (h : exec i s = .next t) : AgreeOn s.job.width s.job.height
      (readImage t.mem s.job.outBase s.job.width) (filterImage s.job i (inputImage s)) := by
  rw [exec_filterOp_mem hi hs hr h]
  exact fun x y hx hy => readImage_writeImage hm hx hy

/-! ## One pass of `BLUR` at one pixel -/

variable {q : KernelFile} {r : Nat}

/-- A channel of a pass, as R141 and R142 write it. -/
theorem satK_blurAcc_toNat (q : KernelFile) (r : Nat) (at_ : Int → Byte) : (satK (blurAcc q r at_)).toNat
      = min 255 ((∑ i ∈ Finset.Icc (-(r : Int)) r, (at_ i).toNat * coefficient q i.natAbs + 32768) / 65536) := by
  rw [satK_toNat, blurAcc, sum_offsets]

/-- The weights that a pass uses are those of P2 of R113: the offset 0 counts once, every other magnitude twice. -/
theorem sum_coefficient_natAbs (q : KernelFile) (r : Nat) :
    ∑ i ∈ Finset.Icc (-(r : Int)) r, coefficient q i.natAbs
      = coefficient q 0 + 2 * ∑ i ∈ Finset.Icc 1 r, coefficient q i := by
  induction r with
  | zero => simp
  | succ r ih =>
    have hends : (-((r : Int) + 1)).natAbs = r + 1 ∧ ((r : Int) + 1).natAbs = r + 1 := by omega
    rw [Nat.cast_succ, Finset.Icc_succ_succ, Finset.sum_union (by simp), Finset.sum_pair (by omega), ih, hends.1,
      hends.2, Finset.sum_Icc_succ_top (by omega)]
    ring

/-- `SatK` of a byte in units of 2^-16 is that byte (R105). -/
theorem satK_whole (c : Byte) : satK (c.toNat * 65536) = c := by
  apply BitVec.eq_of_toNat_eq
  rw [satK_toNat]
  omega

section NormalizedPixel

variable (hq : ∑ i ∈ Finset.Icc (-(r : Int)) r, coefficient q i.natAbs = 65536)
include hq

/-- A normalized pass is a convex combination of bytes, rounded to an integer: it stays between bounds of them (R147). -/
theorem satK_blurAcc_mem {at_ : Int → Byte} {lo hi : Nat} (h : ∀ i, lo ≤ (at_ i).toNat ∧ (at_ i).toNat ≤ hi) :
    lo ≤ (satK (blurAcc q r at_)).toNat ∧ (satK (blurAcc q r at_)).toNat ≤ hi := by
  have hlow : lo * 65536 ≤ blurAcc q r at_ := by
    rw [blurAcc, sum_offsets, ← hq, Finset.mul_sum]
    exact Finset.sum_le_sum fun i _ => Nat.mul_le_mul_right _ (h i).1
  have hhigh : blurAcc q r at_ ≤ hi * 65536 := by
    rw [blurAcc, sum_offsets, ← hq, Finset.mul_sum]
    exact Finset.sum_le_sum fun i _ => Nat.mul_le_mul_right _ (h i).2
  have hbyte : lo ≤ 255 := (h 0).1.trans (Nat.le_of_lt_succ (at_ 0).isLt)
  rw [satK_toNat]
  omega

/-- A normalized pass over samples that are one byte wherever their weight is not 0 gives that byte (R145). -/
theorem satK_blurAcc_of_alike {at_ : Int → Byte} {c : Byte}
    (h : ∀ i ∈ Finset.Icc (-(r : Int)) r, coefficient q i.natAbs ≠ 0 → at_ i = c) : satK (blurAcc q r at_) = c := by
  have hterm : ∀ i ∈ Finset.Icc (-(r : Int)) r,
      (at_ i).toNat * coefficient q i.natAbs = c.toNat * coefficient q i.natAbs := fun i hi => by
    by_cases hz : coefficient q i.natAbs = 0
    · rw [hz, Nat.mul_zero, Nat.mul_zero]
    · rw [h i hi hz]
  rw [blurAcc, sum_offsets, Finset.sum_congr rfl hterm, ← Finset.mul_sum, hq, satK_whole]

/-- R147 for a pass at a pixel `p` whose alpha it copies. -/
theorem channelOf_blurPixel_mem {at_ : Int → Pixel} {p : Pixel} {c : Channel} {lo hi : Nat}
    (h : ∀ i, lo ≤ (channelOf (at_ i) c).toNat ∧ (channelOf (at_ i) c).toNat ≤ hi)
    (hp : lo ≤ (channelOf p c).toNat ∧ (channelOf p c).toNat ≤ hi) :
    lo ≤ (channelOf (blurPixel q r at_ p.a) c).toNat ∧ (channelOf (blurPixel q r at_ p.a) c).toNat ≤ hi := by
  cases c with
  | a => exact hp
  | r | g | b => exact satK_blurAcc_mem hq h

/-- R145 for a pass at a pixel `p` whose alpha it copies. -/
theorem blurPixel_of_alike {at_ : Int → Pixel} {p : Pixel}
    (h : ∀ i ∈ Finset.Icc (-(r : Int)) r, coefficient q i.natAbs ≠ 0 → at_ i = p) : blurPixel q r at_ p.a = p := by
  have hchannel : ∀ f : Pixel → Byte, satK (blurAcc q r fun i => f (at_ i)) = f p := fun f =>
    satK_blurAcc_of_alike hq fun i hi hz => congrArg f (h i hi hz)
  rw [blurPixel, hchannel, hchannel, hchannel]

end NormalizedPixel

/-! ## `BLUR` on an image -/

variable {w h : Nat} {img : Image}

/-- The bounds `lo` and `hi` hold for a channel over the pixels of a width and a height (R147). -/
def ChannelWithin (w h : Nat) (c : Channel) (lo hi : Nat) (img : Image) : Prop :=
  ∀ x y, x < w → y < h → lo ≤ (channelOf (img x y) c).toNat ∧ (channelOf (img x y) c).toNat ≤ hi

/-- At no pixel does a sample of either pass whose weight is not 0 differ from the pixel (R145). -/
def SamplesAlike (q : KernelFile) (r w h : Nat) (img : Image) : Prop :=
  ∀ i ∈ Finset.Icc (-(r : Int)) r, coefficient q i.natAbs ≠ 0 → ∀ x y, x < w → y < h →
    img (clampCoord (x + i) w) y = img x y ∧ img x (clampCoord (y + i) h) = img x y

theorem samplesAlike_of_uniform {p : Pixel} (hu : ∀ x y, x < w → y < h → img x y = p) : SamplesAlike q r w h img := by
  intro i _ _ x y hx hy
  rw [hu x y hx hy]
  exact ⟨hu _ _ (clampCoord_lt (by omega) _) hy, hu _ _ hx (clampCoord_lt (by omega) _)⟩

/-- A normalized kernel with the whole weight at its centre has no other weight. -/
theorem coefficient_eq_zero_of_centre
    (hn : coefficient q 0 + 2 * (∑ i ∈ Finset.Icc 1 r, coefficient q i) = 65536) (hc : coefficient q 0 = 65536)
    {k : Nat} (hk : 1 ≤ k) (hkr : k ≤ r) : coefficient q k = 0 :=
  Finset.sum_eq_zero_iff.mp (by omega) k (Finset.mem_Icc.mpr ⟨hk, hkr⟩)

theorem samplesAlike_of_centre
    (hn : coefficient q 0 + 2 * (∑ i ∈ Finset.Icc 1 r, coefficient q i) = 65536) (hc : coefficient q 0 = 65536) :
    SamplesAlike q r w h img := by
  intro i hi hz x y hx hy
  have hi := Finset.mem_Icc.mp hi
  obtain rfl : i = 0 := by
    by_contra h0
    exact hz (coefficient_eq_zero_of_centre hn hc (by omega) (by omega))
  rw [Int.add_zero, Int.add_zero, clampCoord_of_mem hx, clampCoord_of_mem hy]
  exact ⟨rfl, rfl⟩

section NormalizedImage

variable (hq : ∑ i ∈ Finset.Icc (-(r : Int)) r, coefficient q i.natAbs = 65536)
include hq

theorem ChannelWithin.blurRows {c : Channel} {lo hi : Nat} (hb : ChannelWithin w h c lo hi img) :
    ChannelWithin w h c lo hi (blurRows q r w img) := fun x y hx hy =>
  channelOf_blurPixel_mem hq (fun _ => hb _ y (clampCoord_lt (by omega) _) hy) (hb x y hx hy)

theorem ChannelWithin.blurColumns {c : Channel} {lo hi : Nat} (hb : ChannelWithin w h c lo hi img) :
    ChannelWithin w h c lo hi (blurColumns q r h img) := fun x y hx hy =>
  channelOf_blurPixel_mem hq (fun _ => hb x _ hx (clampCoord_lt (by omega) _)) (hb x y hx hy)

theorem SamplesAlike.blurRows_eq (ha : SamplesAlike q r w h img) : AgreeOn w h (blurRows q r w img) img :=
  fun x y hx hy => blurPixel_of_alike hq fun i hi hz => (ha i hi hz x y hx hy).1

theorem SamplesAlike.blurColumns_eq (ha : SamplesAlike q r w h img) : AgreeOn w h (blurColumns q r h img) img :=
  fun x y hx hy => blurPixel_of_alike hq fun i hi hz => (ha i hi hz x y hx hy).2

/-- The second pass sees an image that the first one left as it was. -/
theorem SamplesAlike.blur_eq (ha : SamplesAlike q r w h img) :
    AgreeOn w h (blurColumns q r h (blurRows q r w img)) img := fun x y hx hy =>
  (readsWithin_blurColumns q r _ _ (ha.blurRows_eq hq) x y hx hy).trans (ha.blurColumns_eq hq x y hx hy)

end NormalizedImage

/-! ## The statements about `BLUR` -/

/-- Settles O25: each phase writes `SatK` of R110's sum, and the scratch image is the first phase of the input image. -/
theorem blurResult : Obligations.BlurResult := by
  refine spatialResult_of_phases (fun j => blurRows j.kernel j.blurRadius j.width)
    (fun j => blurColumns j.kernel j.blurRadius j.height) (fun _ => rfl) fun s img tmp x y htmp => ?_
  rw [htmp]
  exact ⟨satK_blurAcc_toNat _ _ _, satK_blurAcc_toNat _ _ _, satK_blurAcc_toNat _ _ _, rfl, satK_blurAcc_toNat _ _ _,
    satK_blurAcc_toNat _ _ _, satK_blurAcc_toNat _ _ _, (congrArg Pixel.a htmp :)⟩

/-- Settles O26: either pass keeps the bounds of a channel. -/
theorem blurStaysInRange : Obligations.BlurStaysInRange := by
  unfold Obligations.BlurStaysInRange
  intro s t hm hs hr h hn c lo hi hb x y hx hy
  have hq := (sum_coefficient_natAbs s.job.kernel s.job.blurRadius).trans hn
  have hin : ChannelWithin s.job.width s.job.height c lo hi (inputImage s) := hb
  rw [exec_filterOp_output (i := .blur) rfl hm hs hr h x y hx hy]
  exact (hin.blurRows hq).blurColumns hq x y hx hy

/-- Settles O27: in a uniform image every sample is the pixel, a 1 by 1 image is uniform, and the identity kernel weighs
the pixel alone. -/
theorem blurLeavesImage : Obligations.BlurLeavesImage := by
  unfold Obligations.BlurLeavesImage
  intro s t hm hs hr h hn hcase x y hx hy
  have halike : SamplesAlike s.job.kernel s.job.blurRadius s.job.width s.job.height (inputImage s) := by
    rcases hcase with ⟨p, hp⟩ | ⟨hw, hh⟩ | hc
    · exact samplesAlike_of_uniform hp
    · refine samplesAlike_of_uniform (p := inputImage s 0 0) fun x y hx hy => ?_
      rw [show x = 0 by omega, show y = 0 by omega]
    · exact samplesAlike_of_centre hn hc
  rw [exec_filterOp_output (i := .blur) rfl hm hs hr h x y hx hy]
  exact halike.blur_eq ((sum_coefficient_natAbs _ _).trans hn) x y hx hy

end Sys2Proof.Machine

namespace Sys2Proof.Machine

/-! ## The Sobel operator -/

variable {w h x y : Nat} {img : Image}

theorem isInterior_iff : isInterior w h x y = true ↔ 1 ≤ x ∧ x + 1 < w ∧ 1 ≤ y ∧ y + 1 < h := decide_eq_true_iff

/-- R152 over the reals: the length of the gradient, rounded half up and saturated. -/
theorem sobelMagnitude_toNat (img : Image) (c : Channel) (x y : Nat) : ((sobelMagnitude img c x y).toNat : Int)
      = min 255 ⌊Real.sqrt ((sobelX img c x y ^ 2 + sobelY img c x y ^ 2 : Int) : ℝ) + 1 / 2⌋ := by
  obtain ⟨n, hn⟩ := Int.eq_ofNat_of_zero_le (a := sobelX img c x y ^ 2 + sobelY img c x y ^ 2) (by positivity)
  rw [sobelMagnitude, ← sq, ← sq, hn, Int.toNat_natCast, squareRootRounds, Int.cast_natCast]

/-- A border pixel is copied (R150). -/
theorem sobelImage_of_border (hb : ¬ isInterior w h x y = true) : sobelImage w h img x y = img x y := if_neg hb

section Interior

variable (hi : isInterior w h x y = true)
include hi

/-- An interior pixel gets the magnitudes, and keeps alpha (R150, R154). -/
theorem sobelImage_of_interior : sobelImage w h img x y =
    { r := sobelMagnitude img .r x y
      g := sobelMagnitude img .g x y
      b := sobelMagnitude img .b x y
      a := (img x y).a } := if_pos hi

theorem channelOf_sobelImage {c : Channel} (hc : c ≠ .a) :
    channelOf (sobelImage w h img x y) c = sobelMagnitude img c x y := by
  rw [sobelImage_of_interior hi]
  cases c with
  | r | g | b => rfl
  | a => exact absurd rfl hc

/-- In a uniform image both gradients of R151 are differences of equal sums (R155). -/
theorem sobelMagnitude_of_uniform {p : Pixel} (hu : ∀ x y, x < w → y < h → img x y = p) (c : Channel) :
    sobelMagnitude img c x y = 0#8 := by
  have hconstant : AgreeOn w h img fun _ _ => p := hu
  rw [sobelMagnitude_congr hconstant c hi, sobelMagnitude, sobelX, sobelY, sub_self]
  rfl

end Interior

/-! ## The statements about `EDGE` -/

/-- Settles O28: the scratch image, which the second phase copies, is the Sobel image of the input image, and the
gradients that the statement names are those of R151. -/
theorem edgeResult : Obligations.EdgeResult := by
  refine spatialResult_of_phases (fun j => sobelImage j.width j.height) (fun _ img => img) (fun _ => rfl)
    fun s img tmp x y htmp => ⟨rfl, fun hi => ?_, fun hb => ?_⟩ <;> rw [htmp]
  · refine ⟨sobelImage_alpha _ _ _ _ _, fun c hc v hv gx gy hgx hgy => ?_⟩
    have hX : gx = sobelX img c x y := by simp only [hgx, hv, sobelX, channelValue]
    have hY : gy = sobelY img c x y := by simp only [hgy, hv, sobelY, channelValue]
    rw [channelOf_sobelImage (isInterior_iff.mpr hi) hc, hX, hY]
    exact sobelMagnitude_toNat img c x y
  · exact sobelImage_of_border (isInterior_iff.not.mpr hb)

/-- Settles O29: an image at most 2 wide or high has border pixels alone, and a uniform image has gradients 0. -/
theorem edgeOfFlatImages : Obligations.EdgeOfFlatImages := by
  unfold Obligations.EdgeOfFlatImages
  intro s t hm hs hr h
  have houtput := exec_filterOp_output (i := .edge) rfl hm hs hr h
  refine ⟨fun hflat x y hx hy => ?_, fun p hp x y hx₁ hx₂ hy₁ hy₂ => ?_⟩
  · rw [houtput x y hx hy]
    exact sobelImage_of_border (isInterior_iff.not.mpr (by omega))
  · have hi := isInterior_iff.mpr ⟨hx₁, hx₂, hy₁, hy₂⟩
    have hx : x < s.job.width := by omega
    have hy : y < s.job.height := by omega
    rw [houtput x y hx hy, filterImage, sobelImage_of_interior hi, hp x y hx hy]
    simp only [sobelMagnitude_of_uniform hi hp]

end Sys2Proof.Machine

namespace Sys2Proof.Machine

/-! ## The samples of a neighbourhood, one for each offset of the square -/

variable {img : Image} {w h r x y n b : Nat}

/-- The offsets (dx, dy) of the square of R162. -/
noncomputable def offsetSquare (r : Nat) : Finset (Int × Int) :=
  Finset.Icc (-(r : Int)) r ×ˢ Finset.Icc (-(r : Int)) r

/-- The clamped sample at an offset from a pixel (R162). `coe_neighbourhood` ties it to the model's list of samples. -/
def sampleAround (img : Image) (w h x y : Nat) (d : Int × Int) : Pixel := sample img w h (x + d.1) (y + d.2)

/-- The offsets of R162 whose sample has bucket `b` of `n` (R161). `coe_bucketSamples` ties them to the model's list. -/
noncomputable def bucketOffsets (n : Nat) (img : Image) (w h r x y b : Nat) : Finset (Int × Int) :=
  {d ∈ offsetSquare r | bucketOf n (sampleAround img w h x y d) = b}

/-- The list of offsets holds each integer from -r to r once. -/
theorem coe_offsets (r : Nat) : (offsets r : Multiset Int) = (Finset.Icc (-(r : Int)) r).val := by
  have hnodup : (offsets r).Nodup := List.nodup_range.map fun a b hab => by simpa using hab
  exact (Multiset.Nodup.ext (Multiset.coe_nodup.mpr hnodup) (Finset.nodup _)).mpr fun i => by simp [mem_offsets]

/-- The model goes row by row through the square; the order of the samples is lost in the multiset. -/
theorem coe_neighbourhood : (neighbourhood img w h r x y : Multiset Pixel)
      = (offsetSquare r).val.map (sampleAround img w h x y) := by
  have hsquare : (offsetSquare r).val = (Finset.Icc (-(r : Int)) r).val.bind fun dx =>
    (Finset.Icc (-(r : Int)) r).val.map fun dy => (dx, dy) := rfl
  rw [neighbourhood, ← Multiset.coe_bind, hsquare, Multiset.map_bind]
  simp only [← Multiset.map_coe, coe_offsets, Multiset.map_map]
  exact Multiset.bind_map_comm ..

theorem coe_bucketSamples : (bucketSamples n (neighbourhood img w h r x y) b : Multiset Pixel)
      = (bucketOffsets n img w h r x y b).val.map (sampleAround img w h x y) := by
  have hfilter : (bucketSamples n (neighbourhood img w h r x y) b : Multiset Pixel)
      = (neighbourhood img w h r x y : Multiset Pixel).filter fun p => bucketOf n p = b := rfl
  rw [hfilter, coe_neighbourhood, Multiset.filter_map]
  rfl

/-- How many samples have a bucket (R163). -/
theorem length_bucketSamples :
    (bucketSamples n (neighbourhood img w h r x y) b).length = (bucketOffsets n img w h r x y b).card := by
  rw [← Multiset.coe_card, coe_bucketSamples, Multiset.card_map]
  rfl

/-- A sum over the samples of a bucket (R164). -/
theorem sum_bucketSamples (f : Pixel → Nat) : ((bucketSamples n (neighbourhood img w h r x y) b).map f).sum
      = ∑ d ∈ bucketOffsets n img w h r x y b, f (sampleAround img w h x y d) := by
  rw [← Multiset.sum_coe, ← Multiset.map_coe, coe_bucketSamples, Multiset.map_map]
  rfl

/-- There is a sample, the pixel's own. -/
theorem neighbourhood_ne_nil : neighbourhood img w h r x y ≠ [] := by
  have hzero : (0, 0) ∈ offsetSquare r := by simp [offsetSquare]
  have hmem := Multiset.mem_map_of_mem (sampleAround img w h x y) (Finset.mem_val.mpr hzero)
  rw [← coe_neighbourhood, Multiset.mem_coe] at hmem
  exact List.ne_nil_of_mem hmem

/-! ## The mean of the winning bucket -/

variable {c : Channel} {samples : List Pixel} {p : Pixel}

/-- The winning bucket holds a sample, because the bucket of any sample does (R161, R163). -/
theorem winningSamples_length_pos (hn : 1 ≤ n) (hs : samples ≠ []) : 1 ≤ (winningSamples n samples).length := by
  obtain ⟨q, hq⟩ := List.exists_mem_of_ne_nil samples hs
  obtain ⟨-, hmax, -⟩ := bestBucket_spec (fun b => (bucketSamples n samples b).length) hn
  have hmem : q ∈ bucketSamples n samples (bucketOf n q) := List.mem_filter.mpr ⟨hq, beq_self_eq_true _⟩
  exact (List.length_pos_of_mem hmem).trans_le (hmax _ (bucketOf_lt hn q))

/-- The mean of bytes is a byte: the saturator of R164 only rounds. -/
theorem channelMean_toNat (c : Channel) (hs : 1 ≤ samples.length) : (channelMean c samples).toNat
      = (2 * (samples.map fun p => (channelOf p c).toNat).sum + samples.length) / (2 * samples.length) := by
  have hsum : (samples.map fun p => (channelOf p c).toNat).sum ≤ samples.length * 255 := by
    have hbyte : ∀ v ∈ samples.map fun p => (channelOf p c).toNat, v ≤ 255 :=
      List.forall_mem_map.mpr fun p _ => by omega
    simpa using List.sum_le_card_nsmul _ 255 hbyte
  rw [channelMean, sat_toNat, min_eq_right]
  exact Nat.le_of_lt_succ ((Nat.div_lt_iff_lt_mul (by omega)).mpr (by omega))

/-- The mean of samples that are one pixel is that pixel's channel (R166). -/
theorem channelMean_of_alike (hs : 1 ≤ samples.length) (hp : ∀ q ∈ samples, q = p) :
    channelMean c samples = channelOf p c := by
  have hsum : (samples.map fun q => (channelOf q c).toNat).sum = samples.length * (channelOf p c).toNat := by
    rw [List.eq_replicate_of_mem hp]
    simp
  rw [channelMean, hsum, sat_mul_self _ hs]

theorem channelOf_oilImage (hc : c ≠ .a) : channelOf (oilImage w h r n img x y) c
      = channelMean c (winningSamples n (neighbourhood img w h r x y)) := by
  cases c with
  | r | g | b => rfl
  | a => exact absurd rfl hc

/-- In a uniform image every sample is the pixel (R102). -/
theorem eq_of_mem_neighbourhood (hx : x < w) (hy : y < h) (hu : ∀ x y, x < w → y < h → img x y = p) {q : Pixel}
    (hq : q ∈ neighbourhood img w h r x y) : q = p := by
  rw [← Multiset.mem_coe, coe_neighbourhood, Multiset.mem_map] at hq
  obtain ⟨d, -, rfl⟩ := hq
  exact hu _ _ (clampCoord_lt (by omega) _) (clampCoord_lt (by omega) _)

/-- R166, its first case. -/
theorem oilImage_of_uniform (hn : 1 ≤ n) (hx : x < w) (hy : y < h) (hu : ∀ x y, x < w → y < h → img x y = p) :
    oilImage w h r n img x y = p := by
  have hchannel : ∀ c, channelMean c (winningSamples n (neighbourhood img w h r x y)) = channelOf p c := fun c =>
    channelMean_of_alike (winningSamples_length_pos hn neighbourhood_ne_nil) fun q hq =>
      eq_of_mem_neighbourhood hx hy hu (List.mem_of_mem_filter hq)
  rw [oilImage, hu x y hx hy, hchannel, hchannel, hchannel]
  rfl

/-- R160 to R164 at a pixel, in terms of the offsets of the square: the winner, and the mean colour of its samples. -/
theorem oilImage_winner (img : Image) (w h r x y : Nat) (hn : 1 ≤ n) : ∃ best, best < n ∧
    (∀ b, b < n → (bucketOffsets n img w h r x y b).card ≤ (bucketOffsets n img w h r x y best).card) ∧
    (∀ b, b < best → (bucketOffsets n img w h r x y b).card < (bucketOffsets n img w h r x y best).card) ∧
    1 ≤ (bucketOffsets n img w h r x y best).card ∧
    ∀ c : Channel, c ≠ .a → (channelOf (oilImage w h r n img x y) c).toNat =
      (2 * (∑ d ∈ bucketOffsets n img w h r x y best, (channelOf (sampleAround img w h x y d) c).toNat)
        + (bucketOffsets n img w h r x y best).card) / (2 * (bucketOffsets n img w h r x y best).card) := by
  have hpos : 1 ≤ (winningSamples n (neighbourhood img w h r x y)).length :=
    winningSamples_length_pos hn neighbourhood_ne_nil
  simp only [← length_bucketSamples]
  obtain ⟨hlt, hmax, hsmallest⟩ :=
    bestBucket_spec (fun b => (bucketSamples n (neighbourhood img w h r x y) b).length) hn
  refine ⟨_, hlt, hmax, hsmallest, hpos, fun c hc => ?_⟩
  rw [channelOf_oilImage hc, ← sum_bucketSamples fun p => (channelOf p c).toNat]
  exact channelMean_toNat c hpos

/-! ## The statements about `OILPAINT` -/

/-- Settles O30: the scratch image, which the second phase copies, is the oil image of the input image, and the samples,
buckets and square that the statement names are those of R161 and R162. -/
theorem oilPaintResult : Obligations.OilPaintResult := by
  refine spatialResult_of_phases (fun j => oilImage j.width j.height j.oilRadius j.buckets) (fun _ img => img)
    (fun _ => rfl) fun s img tmp x y htmp => ?_
  rw [htmp]
  refine ⟨rfl, rfl, fun hn sampleAt bin square hsample hbin hsquare => ?_⟩
  obtain rfl : sampleAt = sampleAround img s.job.width s.job.height x y := funext hsample
  obtain rfl : bin = bucketOf s.job.buckets := funext hbin
  obtain rfl : square = offsetSquare s.job.oilRadius := hsquare
  exact oilImage_winner img s.job.width s.job.height s.job.oilRadius x y hn

/-- Settles O31: at every pixel the samples of the winning bucket are the one pixel of the image. -/
theorem oilPaintOfUniformImage : Obligations.OilPaintOfUniformImage := by
  unfold Obligations.OilPaintOfUniformImage
  intro s t hm hs hr h _ _ hn _ p hp x y hx hy
  rw [exec_filterOp_output (i := .oilpaint) rfl hm hs hr h x y hx hy]
  exact oilImage_of_uniform hn hx hy hp

end Sys2Proof.Machine

namespace Sys2Proof.Machine

/-! ## `COMMIT` -/

variable {s : State}

theorem exec_commit_of_legal (legal : paramsLegal s.staged = true) :
    exec .commit s = .next { s with
      active := s.staged
      kcoef := kernelFile s.staged.blurRadius.toInt.toNat s.staged.blurSigma.toInt.toNat
      status := statusCommitted .ok s.status } :=
  congrArg Host.Outcome.next (if_pos legal)

theorem exec_commit_of_illegal (illegal : ¬ paramsLegal s.staged = true) :
    exec .commit s = .next { s with status := statusCommitted .invalidParameter s.status } :=
  congrArg Host.Outcome.next (if_neg illegal)

/-- A coefficient is read off the register of its offset (R82). -/
theorem coefficient_fin (q : KernelFile) (i : Fin 16) : coefficient q i = (q[i]).toNat := by
  rw [coefficient, Vector.getElem?_eq_getElem i.isLt, Option.getD_some]
  rfl

/-- Settles O13: R205's list is the legality that `COMMIT` checks, and the kernel it loads is `KQ` of the new radius and
sigma. -/
theorem commitOutcome : Obligations.CommitOutcome := by
  unfold Obligations.CommitOutcome
  intro s
  refine ⟨fun ⟨hnum, hden, hr₁, hr₂, hsigma, ho₁, ho₂, hb₁, hb₂⟩ => ?_, fun hbad => ?_⟩
  · have legal := (paramsLegal_iff s.staged).mpr ⟨hnum, hden, ⟨hr₁, hr₂⟩, hsigma, ⟨ho₁, ho₂⟩, hb₁, hb₂⟩
    refine ⟨_, exec_commit_of_legal legal, fun i => ?_⟩
    rw [← coefficient_fin, coefficient_kernelFile (by omega) (by omega), toNat_toInt_of_nonneg (by omega),
      toNat_toInt_of_nonneg (by omega)]
    split
    · rfl
    · next beyond =>
      have hr := toNat_toInt_of_nonneg (w := s.staged.blurRadius) (by omega)
      exact kq_getD_beyond _ (by omega)
  · refine exec_commit_of_illegal fun legal => ?_
    rw [paramsLegal_iff] at legal
    omega

/-! ## `PROCESS` -/

/-- The checks of `PROCESS`, in the order and the terms of R207. -/
theorem processCheck_eq {n : Int} (hn : n = s.width.toInt * s.height.toInt * 4) :
    processCheck s =
      if s.width.toInt ≤ 0 ∨ s.height.toInt ≤ 0 then some .invalidGeometry
      else if (s.inLen.toNat : Int) ≠ n ∨ (s.outLen.toNat : Int) ≠ n then some .invalidGeometry
      else if 2 ^ 32 < (s.inBase.toNat : Int) + n ∨ 2 ^ 32 < (s.outBase.toNat : Int) + n then some .invalidGeometry
      else if s.inBase ≠ s.outBase ∧ |(s.inBase.toNat : Int) - s.outBase.toNat| < n then some .bufferOverlap
      else if (s.filter = 5#32 ∨ s.filter = 6#32 ∨ s.filter = 7#32) ∧ (s.scratchCap : Int) < n then some .capacity
      else none := by
  subst hn
  have hbase : (s.inBase.toNat : Int) ≠ s.outBase.toNat ↔ s.inBase ≠ s.outBase := by
    rw [Ne, Int.natCast_inj, BitVec.toNat_inj]
  have hspatial : usesScratch s.filter = true ↔ s.filter = 5#32 ∨ s.filter = 6#32 ∨ s.filter = 7#32 := by
    simp [usesScratch, or_assoc]
  simp only [processCheck, hbase, hspatial, Int.natCast_natAbs, gt_iff_lt]
  rfl

theorem exec_process_of_busy (busy : s.status.busy = true) :
    exec .process s = .next { s with status := statusOverrun s.status } :=
  congrArg Host.Outcome.next (processCommand_of_busy busy)

theorem exec_process_of_rejected {code : ProcessCode} (idle : ¬ s.status.busy = true)
    (fails : processCheck s = some code) :
    exec .process s = .next { s with status := statusRejected code s.status } := by
  rw [exec, execProcess, processCommand, if_neg idle, fails]

theorem exec_process_of_accepted (idle : ¬ s.status.busy = true) (passes : processCheck s = none) :
    exec .process s = .next { s with job := latchedJob s, status := statusAccepted s.status } := by
  rw [exec, execProcess, processCommand, if_neg idle, passes]

/-- Settles O14, over the branches of the checks: each one's code, and else the latch, whose dimensions are positive. -/
theorem processOutcome : Obligations.ProcessOutcome := by
  unfold Obligations.ProcessOutcome
  intro s n hn
  have check := processCheck_eq hn
  split
  · next busy => exact exec_process_of_busy busy
  next idle =>
  split_ifs at check ⊢ with size lengths top overlap capacity
  iterate 5 · exact exec_process_of_rejected idle check
  · rw [exec_process_of_accepted idle check, latchedJob, sext32, sext32, toNat_toInt_of_nonneg (by omega),
      toNat_toInt_of_nonneg (by omega)]
    rfl

end Sys2Proof.Machine

namespace Sys2Proof.Machine

/-! ## A running job is not disturbed -/

variable {s t u : State} {a : Action}

/-- What a running job uses stays: the latch, `BUSY`, the mark of a stuck job, the scratch RAM, and every byte of both
ranges (R44, R45, R61). -/
structure Undisturbed (u t : State) : Prop extends SameJob u t where
  scratch : t.scratch = u.scratch
  bytes : ∀ b, inInput u.job b = true ∨ inOutput u.job b = true → readByte t.mem b = readByte u.mem b

theorem SameJob.undisturbed (h : SameJob u t) (scratch : t.scratch = u.scratch) (mem : t.mem = u.mem) :
    Undisturbed u t :=
  { h with scratch := scratch, bytes := fun _ _ => by rw [mem] }

@[simp] theorem writeReg_scratch (reg : Reg) (d : Word) (s : State) : (writeReg reg d s).scratch = s.scratch := by
  cases reg <;> rfl

theorem commitCommand_scratch (u : State) : (commitCommand u).scratch = u.scratch := by
  rcases commitCommand_cases u with ⟨-, h⟩ | ⟨-, h⟩ <;> rw [h]

theorem undisturbed_writeReg (reg : Reg) (d : Word) (u : State) : Undisturbed u (writeReg reg d u) :=
  SameJob.undisturbed ⟨writeReg_job reg d u, congrArg _ (writeReg_status reg d u), writeReg_stuck reg d u⟩
    (writeReg_scratch reg d u) (writeReg_mem reg d u)

/-- The host may write outside both ranges (R61). -/
theorem undisturbed_store (hm : MemoryWf u.mem) {b : Nat} (v : Byte)
    (free : ¬ (inInput u.job b = true ∨ inOutput u.job b = true)) :
    Undisturbed u { u with mem := writeByte u.mem b v } where
  job := rfl
  busy := rfl
  stuck := rfl
  scratch := rfl
  bytes c hc := by
    rw [readByte_writeByte hm, if_neg]
    rintro rfl
    exact free hc

/-- Every action that is no reset, no memory-port error and no turn of the engine leaves a running job undisturbed. -/
theorem Performs.undisturbed (h : Performs u a t) (hm : MemoryWf u.mem) (busy : u.status.busy = true)
    (not_reset : a ≠ .reset) (not_error : ∀ kind b, a ≠ .memoryError kind b)
    (not_turn : ∀ i, a = .run i → isFilterOp i = false) : Undisturbed u t := by
  have no_turn {i : Instr} (turn : i = decodeSelector u.job.filter) (run : a = .run i) : False :=
    Bool.false_ne_true ((not_turn i run).symm.trans (isFilterOp_of_turn turn))
  cases h with
  | reset => exact absurd rfl not_reset
  | memoryError kind b => exact absurd rfl (not_error kind b)
  | store b v free => exact undisturbed_store hm v fun hb => free ⟨busy, hb⟩
  | writeReg reg d _ => exact undisturbed_writeReg reg d u
  | commit => exact (sameJob_commitCommand u).undisturbed (commitCommand_scratch u) (commitCommand_mem u)
  | process => rw [processCommand_of_busy busy]; exact SameJob.undisturbed ⟨rfl, rfl, rfl⟩ rfl rfl
  | load _ | readReg _ | clear | cmdReserved _ => exact SameJob.undisturbed ⟨rfl, rfl, rfl⟩ rfl rfl
  | rest _ turn _ | complete _ _ turn _ _ | stall _ turn _ _ _ => exact (no_turn turn rfl).elim

/-- Settles O49, over what a step performs. -/
theorem runningJobUndisturbed : Obligations.RunningJobUndisturbed := by
  unfold Obligations.RunningJobUndisturbed
  intro s t hm busy h not_reset not_error not_turn
  have same := (performs_of_step h).undisturbed hm busy not_reset not_error not_turn
  exact ⟨same.job, same.busy.trans busy, same.stuck, same.scratch, same.bytes⟩

/-! ## The engine's turn -/

/-- A turn of the engine runs the filter operation of the latched selector (R178, R179). -/
theorem step_of_turn (turn : s.inbox = [] ∨ ∃ rest, s.inbox = .engine :: rest) :
    step s = exec (decodeSelector s.job.filter) (takeEvent s) := by
  have ha : nextAction s = .run (decodeSelector s.job.filter) := by
    rcases turn with h | ⟨rest, h⟩ <;> rw [nextAction, h] <;> exact engineAction_eq s
  rw [step, ha]

/-- Settles O8: the equation of the engine's turn, at each selector. -/
theorem engineTurnDispatches : Obligations.EngineTurnDispatches := by
  unfold Obligations.EngineTurnDispatches
  intro s turn
  have at_code {i : Instr} (h : decodeSelector s.job.filter = i) : step s = exec i (takeEvent s) :=
    h ▸ step_of_turn turn
  have at_word {code : Word} (h : s.job.filter = code) : step s = exec (decodeSelector code) (takeEvent s) :=
    at_code (congrArg _ h)
  exact ⟨at_word, at_word, at_word, at_word, at_word, at_word, at_word, at_word,
    fun h => at_code (decodeSelector_of_ge h)⟩

end Sys2Proof.Machine

namespace Sys2Proof.Machine

/-! ## Register accesses -/

variable {s : State} {reg other : Reg} {d : Word}

/-- `CMD` executes the command that the word names (R170, R175). -/
theorem exec_decodeCommand (d : Word) (s : State) : exec (decodeCommand d) s = .next (commandWrite d s) := by
  unfold decodeCommand commandWrite
  split
  · rfl
  · split
    · rfl
    · split <;> rfl

theorem exec_wr_cmd (d : Word) (s : State) : exec (.wr .cmd d) s = exec (decodeCommand d) s :=
  (exec_decodeCommand d s).symm

theorem exec_wr (not_cmd : reg ≠ .cmd) (d : Word) (s : State) : exec (.wr reg d) s = .next (writeReg reg d s) :=
  if_neg not_cmd

/-- A write to a read-only register or a reserved offset is ignored (R21, R42). -/
theorem writeReg_of_not_writable (h : isWritable reg = false) (d : Word) (s : State) : writeReg reg d s = s := by
  cases reg with
  | id | cmd | status | active _ | kcoef _ | reserved _ => rfl
  | _ => cases h

theorem readReg_writeReg (h : isWritable reg = true) (d : Word) (s : State) : readReg (writeReg reg d s) reg = d := by
  cases reg with
  | staged p => exact paramGet_paramSet p d s.staged
  | filter | width | height | inBase | inLen | outBase | outLen => rfl
  | _ => cases h

theorem readReg_writeReg_of_ne (h : other ≠ reg) (d : Word) (s : State) :
    readReg (writeReg reg d s) other = readReg s other := by
  cases reg with
  | id | cmd | status | active _ | kcoef _ | reserved _ => rfl
  | staged p =>
    cases other with
    | staged p' => exact paramGet_paramSet_of_ne (fun e => h (congrArg Reg.staged e.symm)) d s.staged
    | _ => rfl
  | filter | width | height | inBase | inLen | outBase | outLen => cases other <;> simp_all [readReg, writeReg]

/-- Settles O10: the laws of the register window, and the fields that a write keeps. -/
theorem registerWrite : Obligations.RegisterWrite := by
  unfold Obligations.RegisterWrite
  refine fun s reg d => ⟨fun writable => ?_, fun fixed not_cmd => ?_, fun cmd => ?_⟩
  · have not_cmd : reg ≠ .cmd := by rintro rfl; cases writable
    refine ⟨_, exec_wr not_cmd d s, readReg_writeReg writable d s, fun other h => readReg_writeReg_of_ne h d s, ?_⟩
    obtain ⟨f, w, h, ib, il, ob, ol, st, e⟩ := writeReg_fields reg d s
    rw [e]
    exact ⟨rfl, rfl, rfl, rfl, rfl, rfl, rfl, rfl, rfl, rfl, rfl, rfl⟩
  · rw [exec_wr not_cmd, writeReg_of_not_writable fixed]
  · rw [cmd, exec_wr_cmd]

/-- A kernel coefficient is read with 0 above its 17 bits (R38, R82). -/
theorem readReg_kcoef (s : State) (i : Fin 16) :
    (readReg s (.kcoef i)).toNat = (s.kcoef[i]).toNat ∧ (readReg s (.kcoef i)).extractLsb' 17 15 = 0#15 := by
  have hread : (readReg s (.kcoef i)).toNat = (s.kcoef[i]).toNat := BitVec.toNat_setWidth_of_le (by decide)
  refine ⟨hread, BitVec.eq_of_toNat_eq ?_⟩
  rw [BitVec.extractLsb'_toNat, hread, Nat.shiftRight_eq_div_pow, Nat.div_eq_of_lt (s.kcoef[i]).isLt]
  rfl

/-- The value of a named register, as the value of any name that is it. -/
theorem readReg_of_eq {r : Reg} {v : Word} (h : readReg s r = v) : reg = r → readReg s reg = v := fun e => e ▸ h

/-- Settles O11: the word returned is `readReg`, at each register of R21. -/
theorem registerRead : Obligations.RegisterRead := by
  unfold Obligations.RegisterRead
  refine fun s reg => ⟨readReg s reg, rfl,
    readReg_of_eq rfl, readReg_of_eq rfl, fun n => readReg_of_eq rfl, readReg_of_eq rfl, readReg_of_eq rfl,
    readReg_of_eq rfl, readReg_of_eq rfl, readReg_of_eq rfl, readReg_of_eq rfl, readReg_of_eq rfl,
    readReg_of_eq rfl, readReg_of_eq rfl, readReg_of_eq rfl, readReg_of_eq rfl, readReg_of_eq rfl, readReg_of_eq rfl,
    readReg_of_eq rfl, readReg_of_eq rfl, readReg_of_eq rfl, readReg_of_eq rfl, readReg_of_eq rfl, readReg_of_eq rfl,
    fun i hi => ?_, readReg_of_eq rfl⟩
  rw [hi]
  exact readReg_kcoef s i

/-! ## `CLEAR` and the reserved words -/

/-- Settles O16: `CLEAR` is one update of `STATUS`. -/
theorem clearCommandOutcome : Obligations.ClearCommand := by
  unfold Obligations.ClearCommand
  exact fun s => rfl

/-- The reserved words are all but the three commands (R75). -/
theorem decodeCommand_eq_cmdReserved_iff (w : Word) :
    decodeCommand w = .cmdReserved w ↔ w ≠ 1#32 ∧ w ≠ 2#32 ∧ w ≠ 3#32 := by
  have reserved : (Instr.cmdReserved w).wellFormed = true ↔ w ≠ 1#32 ∧ w ≠ 2#32 ∧ w ≠ 3#32 := by
    simp only [Instr.wellFormed, Bool.and_eq_true, bne_iff_ne, and_assoc]
  rw [← reserved]
  exact ⟨fun h => h ▸ decodeCommand_wellFormed w, decodeCommand_of_reserved⟩

/-- Settles O17: the offset of `CMD` decodes the word as a command. -/
theorem reservedCommandOutcome : Obligations.ReservedCommand := by
  unfold Obligations.ReservedCommand
  refine ⟨fun w s => rfl, fun w => ?_⟩
  have hd : decode (.port { kind := .write w, offset := 0x004#12, width := 32 }) = .ok (decodeCommand w) :=
    decode_writeOf_cmd
  rw [hd, Except.ok.injEq, decodeCommand_eq_cmdReserved_iff]

end Sys2Proof.Machine

namespace Sys2Proof.Machine

/-! ## Overlapping ranges -/

variable {s t : State}

/-- Two ranges of one length share an address exactly when their bases are closer than that length. -/
theorem abs_sub_lt_iff_exists_common {a b n : Int} :
    |a - b| < n ↔ ∃ c, a ≤ c ∧ c < a + n ∧ b ≤ c ∧ c < b + n := by
  rw [abs_sub_lt_iff]
  constructor
  · exact fun close => ⟨max a b, by omega⟩
  · rintro ⟨c, common⟩
    omega

/-- `PROCESS` on an idle machine leaves in `PERR` the code of the first check that applies, or `OK` (R177). -/
theorem exec_process_perr (idle : ¬ s.status.busy = true) (h : exec .process s = .next t) :
    t.status.perr = (processCheck s).getD .ok := by
  cases check : processCheck s with
  | none =>
    rw [exec_process_of_accepted idle check] at h
    cases h
    rfl
  | some code =>
    rw [exec_process_of_rejected idle check] at h
    cases h
    rfl

/-- Settles O15: past the checks of the geometry, the next check of R207 compares the distance of the bases with the
common length of the ranges. -/
theorem overlapReportedExactly : Obligations.OverlapReportedExactly := by
  unfold Obligations.OverlapReportedExactly
  intro s t n hn idle hw hh hin hout hinTop houtTop h
  rw [exec_process_perr (by simp [idle]) h, processCheck_eq hn, if_neg (by omega), if_neg (by omega), if_neg (by omega),
    ← abs_sub_lt_iff_exists_common]
  split
  · next overlap => exact iff_of_true rfl overlap
  · next apart =>
    refine iff_of_false ?_ apart
    split <;> decide

/-! ## Unsupported selectors -/

/-- Settles O23: the image that an unsupported filter writes is the input image. -/
theorem unsupportedFilterCopies : Obligations.UnsupportedFilterCopies :=
  fun code => pointwiseResult_of_filterImage (i := .filterUnsupported code) rfl rfl fun _ _ _ _ => rfl

/-! ## The idle machine -/

/-- A filter operation does nothing while no job runs. -/
theorem exec_filterOp_of_idle {i : Instr} (hi : isFilterOp i = true) (idle : s.status.busy = false) :
    exec i s = .next s := by
  obtain ⟨effect, he, -⟩ := exec_filterOp hi
  rw [he, runJob_idle (.inl idle)]

/-- Settles O9: with an empty inbox a step is a turn of the engine, which finds no job. -/
theorem idleMachineRests : Obligations.IdleMachineRests := by
  unfold Obligations.IdleMachineRests
  intro s idle empty
  have same : takeEvent s = s := by rw [takeEvent, empty, List.tail_nil, ← empty]
  rw [step_of_turn (.inl empty), same, exec_filterOp_of_idle (isFilterOp_decodeSelector _) idle]

end Sys2Proof.Machine

namespace Sys2Proof.Machine

/-! ## The reset input -/

variable {s : State} {rest : List Event}

/-- A step with the reset input at the head of the inbox is the reset (R220). -/
theorem step_of_reset (h : s.inbox = .reset :: rest) : step s = .next (hardwareReset { s with inbox := rest }) := by
  rw [step, nextAction, h, ← takeEvent_of_inbox h]

/-- A reset puts every register at its reset value; the state it starts from matters for the buffer memory and the
model's counter only where a job was running (R220, R221). -/
theorem hardwareReset_fields (s : State) : ∃ m n,
    hardwareReset s = resetRegisters { s with mem := m, freeCount := n } ∧ (s.status.busy = false → m = s.mem) := by
  cases busy : s.status.busy with
  | true => exact ⟨_, _, if_pos busy, nofun⟩
  | false => exact ⟨_, _, if_neg (by simp [busy]), fun _ => rfl⟩

/-- The word of the reset `STATUS` (R24, R220). -/
theorem statusWord_reset : statusWord Status.reset = 0#32 := by decide

/-- The kernel of the reset values has radius 1: no weight from offset 2 on (R21). -/
theorem coefficient_reset_of_two_le {i : Nat} (hi : 2 ≤ i) : coefficient KernelFile.reset i = 0 := by
  have registers : ∀ k : Fin 16, 2 ≤ k.val → coefficient KernelFile.reset k.val = 0 := by decide
  by_cases inside : i < 16
  · exact registers ⟨i, inside⟩ hi
  · rw [coefficient, Vector.getElem?_eq_none (by omega)]
    rfl

/-- Both parameter sets hold the reset values of R21. -/
theorem params_reset_of_mem {ps : Params} (h : ps ∈ [Params.reset, Params.reset]) :
    ps.brightNum = 6#32 ∧ ps.brightDen = 5#32 ∧ ps.blurRadius = 1#32 ∧ ps.blurSigma = 0x00010000#32 ∧
      ps.oilRadius = 1#32 ∧ ps.oilBuckets = 20#32 := by
  obtain rfl : ps = Params.reset := by simpa using h
  exact ⟨rfl, rfl, rfl, rfl, rfl, rfl⟩

/-- Settles O50: the step is the reset, whose registers are those of `State.reset`. -/
theorem resetInput : Obligations.ResetInput := by
  unfold Obligations.ResetInput
  intro s rest h
  obtain ⟨m, n, fields, kept⟩ := hardwareReset_fields { s with inbox := rest }
  rw [step_of_reset h, fields]
  exact ⟨_, rfl, rfl, statusWord_reset, rfl, rfl, rfl, rfl, rfl, rfl, rfl, fun _ => params_reset_of_mem,
    rfl, rfl, fun _ => coefficient_reset_of_two_le, rfl, rfl, rfl, kept⟩

/-- A reset of a running job abandons it, with any value in its output range (R221). -/
theorem hardwareReset_mem_of_busy (busy : s.status.busy = true) :
    (hardwareReset s).mem = (scrambleOutput s).mem := by
  rw [hardwareReset, if_pos busy, resetRegisters_mem]

/-- An engine turn of an idle machine does nothing but take the turn (R178). -/
theorem step_engine_of_idle (idle : s.status.busy = false) :
    step { s with inbox := [.engine] } = .next { s with inbox := [] } :=
  (step_of_turn (.inr ⟨[], rfl⟩)).trans (exec_filterOp_of_idle (isFilterOp_decodeSelector _) idle)

/-- Settles O51: the abandoned job's output range is scrambled, and no job is left for the engine. -/
theorem resetDuringJob : Obligations.ResetDuringJob := by
  unfold Obligations.ResetDuringJob
  intro s rest hm busy h
  have mem := hardwareReset_mem_of_busy (s := { s with inbox := rest }) busy
  refine ⟨_, step_of_reset h, hardwareReset_status, fun a inside => ?_, fun a outside => ?_,
    step_engine_of_idle (congrArg Status.busy hardwareReset_status)⟩
  · rw [mem]
    exact scrambleOutput_inside (s := { s with inbox := rest }) hm (inOutput_iff.mp inside)
  · rw [mem]
    exact scrambleOutput_outside (s := { s with inbox := rest }) hm a fun inside =>
      Bool.false_ne_true (outside.symm.trans (inOutput_iff.mpr inside))

/-! ## The state after reset -/

/-- The state after reset meets the invariant: its memories are empty, its kernel agrees with its parameters, and no job
runs. -/
theorem inv_reset : Inv State.reset where
  mem_wf := ⟨.nil, nofun⟩
  mem_below := nofun
  scratch_wf := ⟨.nil, nofun⟩
  scratch_below := nofun
  scratchCap_ge := Nat.le_add_left 4 Config.scratchExtra
  active_legal := by decide
  kcoef_agrees := kernelFile_reset
  job_fits := nofun
  stuck_running := nofun
  running_clear := nofun

/-- Settles O52: `BUSY` is 0 in the reset `STATUS`. -/
theorem resetStateMeetsInvariant : Obligations.ResetStateMeetsInvariant := by
  unfold Obligations.ResetStateMeetsInvariant
  exact ⟨inv_reset, rfl⟩

end Sys2Proof.Machine
